-- ==== Sys2Proof/Word.lean ====
section
/-! DEFINITION. The bit widths of the block's ports and the command they carry. -/

namespace Sys2Proof

/-- The `op` port, `op[3:0]` (10_state.md R24). -/
abbrev OpBits := BitVec 4

/-- The `a` port, `a[47:0]` (10_state.md R24). -/
abbrev PortA := BitVec 48

/-- The `b` port, `b[15:0]` (10_state.md R24). -/
abbrev PortB := BitVec 16

/-- The `y` port, `y[47:0]` (10_state.md R25). -/
abbrev PortY := BitVec 48

/-- The `z` port, `z[7:0]` (10_state.md R25). -/
abbrev PortZ := BitVec 8

/-- The status port `f[3:0]` (10_state.md R25, R26). -/
abbrev Flags := BitVec 4

/-- A byte as the host moves it over the sensor's bus (20_memory.md R42). -/
abbrev Byte := BitVec 8

/-- The 68-bit command word `CW[67:0]`, a notation only (30_encoding.md R50). -/
abbrev CommandWord := BitVec 68

/-- One presentation of `(op, a, b)` to the block (30_encoding.md R50). -/
structure Command where
  op : OpBits
  a  : PortA
  b  : PortB
  deriving DecidableEq, Repr

end Sys2Proof
end

