-- ==== Sys2Proof/Config.lean ====
section
/-! DEFINITION. The parameters of the block: those the source fixes (00_scope.md R8) and the one it leaves open
(00_scope.md R9, 93_implementation_defined.md U6). -/

namespace Sys2Proof

/-- `TMO_CLAMP`, the count the compressor clamps to (00_scope.md R8). -/
abbrev Config.tmoClamp : Nat := 0xFFFF

/-- `TMO_BYTE_MASK`, the largest value of the LSByte (00_scope.md R8). -/
abbrev Config.tmoByteMask : Nat := 0xFF

/-- `MP_K1`, the first factor of the macro period (00_scope.md R8). -/
abbrev Config.mpK1 : Nat := 2304

/-- `MP_K2`, the second factor of the macro period (00_scope.md R8). -/
abbrev Config.mpK2 : Nat := 1655

/-- `MP_ROUND`, the rounding addend of the macro period (00_scope.md R8). -/
abbrev Config.mpRound : Nat := 500

/-- `MP_DIV`, the divisor of the macro period and of the microsecond conversion (00_scope.md R8). -/
abbrev Config.mpDiv : Nat := 1000

/-- `SPAD_BITS`, the bits of the SPAD reference map (00_scope.md R8). -/
abbrev Config.spadBits : Nat := 48

/-- `SPAD_APERTURE_FIRST`, the first eligible index of an aperture map (00_scope.md R8). -/
abbrev Config.spadApertureFirst : Nat := 12

/-- `SPAD_NONAPERTURE_FIRST`, the first eligible index of any other map (00_scope.md R8). -/
abbrev Config.spadNonapertureFirst : Nat := 0

/-- `2^W_MCLK`: a count or time of this size or more does not fit its 32-bit result (00_scope.md R9). -/
abbrev Config.resultLimit : Nat := 2 ^ 32

/-- `T_PD`, the propagation delay from a stable command to stable outputs: an OPEN parameter with no bound (00_scope.md R9,
70_reset_and_hazards.md R153, R158, 93_implementation_defined.md U6). No rule of the model depends on it, since the model has
no time: it is named so that a host-level timing claim can take it. -/
opaque Config.tPd : Nat

end Sys2Proof
end

