-- ==== Sys2Proof/Syntax.lean ====
section
/-! DEFINITION. The commands of the block as a syntax, one constructor per row of spec/opcode_table.json, and the spec's assembler
lines (30_encoding.md R56). -/

namespace Sys2Proof

/-- A decoded command: its operation (30_encoding.md R51) and the operand fields the operation reads (R52). Every operand value
of an assigned `op` is legal (R55), so the fields carry exactly the width of R52. -/
inductive Instr where
  /-- `op = 0x1`, unit TENC: a timeout pair to a macro-clock count (40_timeout.md R70). -/
  | tmo2mclk (raw : BitVec 16)
  /-- `op = 0x2`, unit TDEC: a macro-clock count to a timeout pair (40_timeout.md R75). -/
  | mclk2tmo (mclks : BitVec 32)
  /-- `op = 0x3`, unit CONV: macro clocks to microseconds (41_clock_conversion.md R91). -/
  | mclk2us (mclks : BitVec 32) (vcselPclks : BitVec 16)
  /-- `op = 0x4`, unit CONV: microseconds to macro clocks (41_clock_conversion.md R94). -/
  | us2mclk (us : BitVec 32) (vcselPclks : BitVec 16)
  /-- `op = 0x5`, unit CONV: the VCSEL period register's decode (41_clock_conversion.md R97). -/
  | vcsel2pclk (reg : BitVec 8)
  /-- `op = 0x6`, unit SPAD: the count and aperture split (42_spad.md R110). -/
  | spadinfo (info : BitVec 8)
  /-- `op = 0x7`, unit SPAD: the reference-map selection (42_spad.md R113). -/
  | spadmap (refSpad : BitVec 48) (count : BitVec 8) (isAperture : Bool)
  /-- `op = 0x0`, reserved (30_encoding.md R54). -/
  | reserved0
  /-- `op = 0x8 .. 0xF`, reserved (30_encoding.md R54). `low` is `op[2:0]`, which tells the eight codes apart and which the
  block ignores (log entry 12). -/
  | reserved8F (low : BitVec 3)
  deriving DecidableEq, Repr

/-- The row's name in spec/opcode_table.json. -/
def Instr.mnemonic : Instr → String
  | .tmo2mclk _ => "TMO2MCLK"
  | .mclk2tmo _ => "MCLK2TMO"
  | .mclk2us _ _ => "MCLK2US"
  | .us2mclk _ _ => "US2MCLK"
  | .vcsel2pclk _ => "VCSEL2PCLK"
  | .spadinfo _ => "SPADINFO"
  | .spadmap _ _ _ => "SPADMAP"
  | .reserved0 => "RESERVED0"
  | .reserved8F _ => "RESERVED8-F"

/-- An assembler operand: an integer literal or a host variable `h0`, `h1`, … (30_encoding.md R56). -/
inductive AsmOperand where
  | lit (n : Nat)
  | var (k : Nat)
  deriving DecidableEq, Repr

/-- The map operand of SPADMAP: one number, or the six wire bytes in read order (30_encoding.md R56). -/
inductive AsmMap where
  | word (v : AsmOperand)
  | bytes (b0 b1 b2 b3 b4 b5 : AsmOperand)
  deriving DecidableEq, Repr

/-- One line of the spec's assembler (30_encoding.md R56). `none` is an omitted field, which is 0. -/
inductive AsmLine where
  | tmo2mclk (raw : Option AsmOperand)
  | mclk2tmo (mclks : Option AsmOperand)
  | mclk2us (mclks pclks : Option AsmOperand)
  | us2mclk (us pclks : Option AsmOperand)
  | vcsel2pclk (reg : Option AsmOperand)
  | spadinfo (byte : Option AsmOperand)
  | spadmap (map : Option AsmMap) (count ap : Option AsmOperand)
  /-- SPADMAP with the whole of `b` as one operand, as program P3 of 95_test_vectors.md writes it (`SPADMAP map, h0` with a
  SPADINFO result in `h0`; 30_encoding.md R53). DEDUCED, log entry 14. -/
  | spadmapPacked (map : Option AsmMap) (b : AsmOperand)
  deriving DecidableEq, Repr

end Sys2Proof
end

