-- ==== Sys2Proof/WellFormed.lean ====
section
/-! DEFINITION. What a well-formed instruction, command word and assembler line are. -/

namespace Sys2Proof

/-- Every instruction is well formed: "Operand values are never reserved: every operand value of an assigned `op` is legal"
(30_encoding.md R55), and each field has its width in its type (R52). -/
def Instr.wellFormed (_ : Instr) : Bool := true

/-- A number is a command word when it fits `CW[67:0]` (30_encoding.md R50). -/
def wordWellFormed (w : Nat) : Bool := decide (w < 2 ^ 68)

/-- The value of an assembler operand in the host's variables (30_encoding.md R56); none for a variable the host does not hold. -/
def AsmOperand.value (env : List Nat) : AsmOperand → Option Nat
  | .lit n => some n
  | .var k => env[k]?

/-- An operand fits a field of `width` bits. -/
def AsmOperand.fits (env : List Nat) (width : Nat) (v : AsmOperand) : Bool :=
  match v.value env with
  | some n => decide (n < 2 ^ width)
  | none => false

/-- An operand that may be omitted fits a field of `width` bits. -/
def fieldFits (env : List Nat) (width : Nat) : Option AsmOperand → Bool
  | none => true
  | some v => v.fits env width

/-- A map operand fits: 48 bits, or six bytes. -/
def mapFits (env : List Nat) : Option AsmMap → Bool
  | none => true
  | some (.word v) => v.fits env 48
  | some (.bytes b0 b1 b2 b3 b4 b5) =>
    b0.fits env 8 && b1.fits env 8 && b2.fits env 8 && b3.fits env 8 && b4.fits env 8 && b5.fits env 8

/-- An assembler line is well formed when each operand has a value that fits its field (30_encoding.md R52, R56). -/
def AsmLine.wellFormed (env : List Nat) : AsmLine → Bool
  | .tmo2mclk raw => fieldFits env 16 raw
  | .mclk2tmo m => fieldFits env 32 m
  | .mclk2us m p => fieldFits env 32 m && fieldFits env 16 p
  | .us2mclk u p => fieldFits env 32 u && fieldFits env 16 p
  | .vcsel2pclk r => fieldFits env 8 r
  | .spadinfo i => fieldFits env 8 i
  | .spadmap m c ap => mapFits env m && fieldFits env 8 c && fieldFits env 1 ap
  | .spadmapPacked m b => mapFits env m && b.fits env 16

end Sys2Proof
end

