-- ==== Sys2Proof/Decode.lean ====
section
/-! DEFINITION. The command word, the decoder (total on commands, rejecting byte strings by name), the encoder, the opcode table's
rows and the assembler. -/

namespace Sys2Proof

/-! ## The command word -/

/-- `CW = {b, a, op}` (30_encoding.md R50). -/
def commandToWord (c : Command) : CommandWord := c.b ++ c.a ++ c.op

/-- `op = CW[3:0]`, `a = CW[51:4]`, `b = CW[67:52]` (30_encoding.md R50). -/
def commandOfWord (w : CommandWord) : Command :=
  { op := w.extractLsb' 0 4, a := w.extractLsb' 4 48, b := w.extractLsb' 52 16 }

/-! ## The decoder -/

/-- The instruction a command selects (30_encoding.md R51) with the operand fields of R52; total over all commands (R55). -/
def decode (c : Command) : Instr :=
  match c.op.toNat with
  | 0 => .reserved0
  | 1 => .tmo2mclk (c.a.extractLsb' 0 16)
  | 2 => .mclk2tmo (c.a.extractLsb' 0 32)
  | 3 => .mclk2us (c.a.extractLsb' 0 32) c.b
  | 4 => .us2mclk (c.a.extractLsb' 0 32) c.b
  | 5 => .vcsel2pclk (c.a.extractLsb' 0 8)
  | 6 => .spadinfo (c.a.extractLsb' 0 8)
  | 7 => .spadmap c.a (c.b.extractLsb' 0 8) (c.b.getLsbD 8)
  | _ => .reserved8F (c.op.extractLsb' 0 3)

/-- The instruction of a command word. -/
def decodeWord (w : CommandWord) : Instr := decode (commandOfWord w)

/-! ## The encoder -/

/-- The command of an instruction (30_encoding.md R51, R52); the bits the operation ignores are 0 (log entry 8). -/
def encodeCommand : Instr → Command
  | .reserved0 => { op := 0, a := 0, b := 0 }
  | .tmo2mclk raw => { op := 1, a := raw.setWidth 48, b := 0 }
  | .mclk2tmo m => { op := 2, a := m.setWidth 48, b := 0 }
  | .mclk2us m p => { op := 3, a := m.setWidth 48, b := p }
  | .us2mclk u p => { op := 4, a := u.setWidth 48, b := p }
  | .vcsel2pclk r => { op := 5, a := r.setWidth 48, b := 0 }
  | .spadinfo i => { op := 6, a := i.setWidth 48, b := 0 }
  | .spadmap m c ap => { op := 7, a := m, b := (BitVec.ofBool ap ++ c).setWidth 16 }
  | .reserved8F low => { op := 1#1 ++ low, a := 0, b := 0 }

/-- The command word of an instruction. -/
def encode (i : Instr) : CommandWord := commandToWord (encodeCommand i)

/-! ## The rows of spec/opcode_table.json -/

/-- A row of the opcode table: a command belongs to it when `op &&& mask = pattern`. -/
structure OpcodeRow where
  mnemonic : String
  pattern  : OpBits
  mask     : OpBits
  deriving DecidableEq, Repr

/-- spec/opcode_table.json, row by row (the machine-readable copy of 30_encoding.md R51). -/
def opcodeRows : List OpcodeRow :=
  [ ⟨"TMO2MCLK", 0x1, 0xF⟩, ⟨"MCLK2TMO", 0x2, 0xF⟩, ⟨"MCLK2US", 0x3, 0xF⟩, ⟨"US2MCLK", 0x4, 0xF⟩, ⟨"VCSEL2PCLK", 0x5, 0xF⟩,
    ⟨"SPADINFO", 0x6, 0xF⟩, ⟨"SPADMAP", 0x7, 0xF⟩, ⟨"RESERVED0", 0x0, 0xF⟩, ⟨"RESERVED8-F", 0x8, 0x8⟩ ]

/-- The row holds this op code. -/
def rowHolds (r : OpcodeRow) (op : OpBits) : Bool := op &&& r.mask == r.pattern

/-! ## Bytes

The command word is a notation (30_encoding.md R50); the nine-byte layout below, least significant byte first with the top four
bits of the ninth byte 0, is the model's own. DESIGN CHOICE, log entry 7. -/

/-- Why a byte string is no command word. -/
inductive DecodeError where
  /-- Fewer than nine bytes stand there. Safe. -/
  | tooShort
  /-- The four bits above `CW[67]` are not 0. Safe. -/
  | paddingNotZero
  deriving DecidableEq, Repr

/-- The number whose bytes these are, least significant first. -/
def littleEndian : List Byte → Nat
  | [] => 0
  | b :: rest => b.toNat + 256 * littleEndian rest

/-- The low `n` bytes of a number, least significant first. -/
def bytesOf : Nat → Nat → List Byte
  | 0, _ => []
  | n + 1, w => BitVec.ofNat 8 w :: bytesOf n (w / 256)

/-- Read one command word from the front of a byte string, with the bytes that follow it. -/
def decodeBytes : List Byte → Except DecodeError (Instr × List Byte)
  | b0 :: b1 :: b2 :: b3 :: b4 :: b5 :: b6 :: b7 :: b8 :: rest =>
    if wordWellFormed (littleEndian [b0, b1, b2, b3, b4, b5, b6, b7, b8]) then
      .ok (decodeWord (BitVec.ofNat 68 (littleEndian [b0, b1, b2, b3, b4, b5, b6, b7, b8])), rest)
    else .error .paddingNotZero
  | _ => .error .tooShort

/-- The nine bytes of an instruction's word. -/
def encodeBytes (i : Instr) : List Byte := bytesOf 9 (encode i).toNat

/-- The instruction the decoder reads from a word numbered as spec/opcode_table.json numbers it; every bit from `nbits` up is 0. -/
def decodeTableWord (nbits w : Nat) : Option Instr :=
  match decodeBytes (bytesOf (max 9 ((nbits + 7) / 8)) (w % 2 ^ nbits)) with
  | .ok (i, []) => some i
  | _ => none

/-! ## The assembler -/

/-- An operand's value in a field of `width` bits, none where it does not fit. -/
def operandBits (env : List Nat) (width : Nat) (v : AsmOperand) : Option (BitVec width) :=
  if v.fits env width then (v.value env).map (BitVec.ofNat width) else none

/-- A field that may be omitted; "Omitted fields are 0" (30_encoding.md R56). -/
def fieldBits (env : List Nat) (width : Nat) : Option AsmOperand → Option (BitVec width)
  | none => some 0
  | some v => operandBits env width v

/-- A map operand; six wire bytes assemble to `b0 | b1<<8 | … | b5<<40` (30_encoding.md R56, 20_memory.md R44). -/
def mapBits (env : List Nat) : Option AsmMap → Option (BitVec 48)
  | none => some 0
  | some (.word v) => operandBits env 48 v
  | some (.bytes b0 b1 b2 b3 b4 b5) => do
    let x0 ← operandBits env 8 b0
    let x1 ← operandBits env 8 b1
    let x2 ← operandBits env 8 b2
    let x3 ← operandBits env 8 b3
    let x4 ← operandBits env 8 b4
    let x5 ← operandBits env 8 b5
    pure (x5 ++ x4 ++ x3 ++ x2 ++ x1 ++ x0)

/-- The command an assembler line stands for (30_encoding.md R56), none where an operand does not fit its field. -/
def assemble (env : List Nat) : AsmLine → Option Command
  | .tmo2mclk raw => (fieldBits env 16 raw).map fun r => encodeCommand (.tmo2mclk r)
  | .mclk2tmo m => (fieldBits env 32 m).map fun x => encodeCommand (.mclk2tmo x)
  | .mclk2us m p => do
    let x ← fieldBits env 32 m
    let q ← fieldBits env 16 p
    pure (encodeCommand (.mclk2us x q))
  | .us2mclk u p => do
    let x ← fieldBits env 32 u
    let q ← fieldBits env 16 p
    pure (encodeCommand (.us2mclk x q))
  | .vcsel2pclk r => (fieldBits env 8 r).map fun x => encodeCommand (.vcsel2pclk x)
  | .spadinfo i => (fieldBits env 8 i).map fun x => encodeCommand (.spadinfo x)
  | .spadmap m c ap => do
    let x ← mapBits env m
    let n ← fieldBits env 8 c
    let t ← fieldBits env 1 ap
    pure (encodeCommand (.spadmap x n (t == 1#1)))
  | .spadmapPacked m b => do
    let x ← mapBits env m
    let q ← operandBits env 16 b
    pure { op := 7, a := x, b := q }

end Sys2Proof
end

