-- ==== Sys2Proof/Machine/State.lean ====
section
/-! DEFINITION. The block's state: its input ports, the record `Last` of its outputs, and what the host does next. -/

namespace Sys2Proof.Machine

/-- What stands on the input ports (10_state.md R24). A bit is driven and stable where its mask bit is 1; the value of an
undriven or changing bit means nothing (70_reset_and_hazards.md R150). -/
structure Inputs where
  op       : OpBits
  a        : PortA
  b        : PortB
  opDriven : BitVec 4
  aDriven  : BitVec 48
  bDriven  : BitVec 16
  deriving DecidableEq, Repr

/-- One evaluation's outputs `(y, z, f)` (10_state.md R25, R26). -/
structure Outputs where
  y : PortY
  z : PortZ
  f : Flags
  deriving DecidableEq, Repr

/-- What the host does at the block's ports (00_scope.md R13). The model's own, log entry 4. -/
inductive HostAction where
  /-- Put these inputs on the ports and let the block settle: one command, one evaluation (R13, R153). -/
  | present (inp : Inputs)
  /-- Take the outcome of the last evaluation as a value (00_scope.md R14, 10_state.md R27). -/
  | use
  deriving DecidableEq, Repr

/-- The block and the host's next actions, as plain data. -/
structure State where
  /-- The input ports `op`, `a`, `b` (10_state.md R24). -/
  inputs : Inputs
  /-- `Last`, the outputs of the most recent evaluation, or no value (10_state.md R27). -/
  last   : Option Outputs
  /-- What the host does next, oldest first; when it is empty the host holds its inputs (log entries 4 and 5). -/
  host   : List HostAction
  deriving DecidableEq, Repr

/-- Why a run stops. Every fault is raised when the host uses an outcome as a value, never by the block itself, which
drives its outputs whatever the command (60_exceptions.md R130). -/
inductive Fault where
  /-- `Last` holds no value: nothing has been evaluated, or the inputs are undriven (10_state.md R27). Raised by `use`. Safe. -/
  | noValue
  /-- `Fault(ILL)`, code 0: the last command's op is reserved (60_exceptions.md R131). Raised by `use`. Safe. -/
  | ill
  /-- `Fault(OVF)`, code 1: the last result does not fit 32 bits (60_exceptions.md R132). Raised by `use`. Safe. -/
  | ovf
  /-- `Fault(DZ)`, code 3: the last command divides by a zero macro period (60_exceptions.md R134). Raised by `use`. Safe. -/
  | dz
  /-- A host's own sum or difference of clock counts does not fit `mclks`, 32 bits unsigned (70_reset_and_hazards.md R155 does
  not say what a host does then). Raised by the host sequences, never by `step`. Safe. -/
  | hostRange
  deriving DecidableEq, Repr

/-- Why an instruction has no meaning. -/
inductive Refusal where
  /-- The instruction has no meaning yet. Raised by `exec`'s arm alone (no arm raises it now). Safe. -/
  | notModelled (mnemonic : String)
  deriving DecidableEq, Repr

/-- No bit of the input ports is driven (log entry 2). -/
def Inputs.undriven : Inputs := { op := 0, a := 0, b := 0, opDriven := 0, aDriven := 0, bDriven := 0 }

/-- A command with every input bit driven and stable (70_reset_and_hazards.md R153). -/
def Inputs.ofCommand (c : Command) : Inputs :=
  { op := c.op, a := c.a, b := c.b, opDriven := BitVec.allOnes 4, aDriven := BitVec.allOnes 48, bDriven := BitVec.allOnes 16 }

/-- The values on the ports, read as a command. -/
def Inputs.command (p : Inputs) : Command := { op := p.op, a := p.a, b := p.b }

/-- Power-up: nothing drives the inputs and `Last` holds no value (70_reset_and_hazards.md R150, 10_state.md R27); the host's
list is empty (log entry 4). -/
def State.reset : State := { inputs := Inputs.undriven, last := none, host := [] }

end Sys2Proof.Machine
end

