-- ==== Sys2Proof/Machine/Flags.lean ====
section
/-! DEFINITION. The four status flags and what a model makes of them (10_state.md R26, 60_exceptions.md R131 to R136). -/

namespace Sys2Proof.Machine

/-- The exceptional outcomes (60_exceptions.md R131 to R134). -/
inductive Cause where
  | ill
  | ovf
  | sat
  | dz
  deriving DecidableEq, Repr

/-- "The cause code of a flag is its bit index in `f`" (60_exceptions.md section 2). -/
def causeCode : Cause → Nat
  | .ill => 0
  | .ovf => 1
  | .sat => 2
  | .dz => 3

/-- "A command that raises the flag with code `c` drives `f = 2^c`" (60_exceptions.md section 2). -/
def raise (c : Cause) : Flags := BitVec.ofNat 4 (2 ^ causeCode c)

/-- `if <condition> then raise <FLAG>()`, with every other flag driven to 0 (10_state.md R26). -/
def raiseIf (condition : Bool) (c : Cause) : Flags := if condition then raise c else 0

/-- The flag of a cause is 1. -/
def flagSet (f : Flags) (c : Cause) : Bool := f.getLsbD (causeCode c)

/-- The fault a flagged outcome counts as: ILL, OVF and DZ are faults (60_exceptions.md R131, R132, R134), SAT is an ordinary
value (R133), and so is every outcome with `f = 0` (R135). At most one flag is 1 (R136); the order of the tests matters in no
reachable state (log entry 16). -/
def flagFault (f : Flags) : Option Fault :=
  if flagSet f .ill then some .ill
  else if flagSet f .ovf then some .ovf
  else if flagSet f .dz then some .dz
  else none

/-- A command's outputs taken as a value: "A model should map them to a fault outcome rather than use the driven value"
(00_scope.md R14). -/
def asValue (o : Outputs) : Except Fault Outputs :=
  match flagFault o.f with
  | some e => .error e
  | none => .ok o

end Sys2Proof.Machine
end

