-- ==== Sys2Proof/Machine/Operands.lean ====
section
/-! DEFINITION. The operand fields of a command (30_encoding.md R52, 20_memory.md R42 to R45) and the input bits each operation reads. -/

namespace Sys2Proof.Machine

/-- The LSByte of a timeout pair, its mantissa (20_memory.md R43). -/
def pairLsb (raw : BitVec 16) : BitVec 8 := raw.extractLsb' 0 8

/-- The MSByte of a timeout pair, its exponent (20_memory.md R43). -/
def pairMsb (raw : BitVec 16) : BitVec 8 := raw.extractLsb' 8 8

/-- The count field of the SPAD-info byte, `info[6:0]` (42_spad.md R110). -/
def infoCount (info : BitVec 8) : BitVec 7 := info.extractLsb' 0 7

/-- The aperture flag of the SPAD-info byte, `info[7]` (42_spad.md R110). -/
def infoAperture (info : BitVec 8) : Bool := info.getLsbD 7

/-- Byte `k` of a SPAD map, at bits `8k+7:8k` (20_memory.md R44). -/
def mapByte (m : BitVec 48) (k : Nat) : BitVec 8 := m.extractLsb' (8 * k) 8

/-! ## Wire bytes

How a host maps the sensor's bytes to the ports and back (20_memory.md R42 to R45); the block itself has no byte order. -/

/-- The 16-bit timeout pair of two wire bytes: byte 0 is the MSByte, byte 1 the LSByte (20_memory.md R43). -/
def pairOfWire (byte0 byte1 : Byte) : BitVec 16 := byte0 ++ byte1

/-- The two bytes of a timeout register as the host sends them: "`y[15:8]` first and `y[7:0]` second" (20_memory.md R43). -/
def pairToWire (y : PortY) : List Byte := [y.extractLsb' 8 8, y.extractLsb' 0 8]

/-- The map port of six bytes in read order: byte `k` at bits `8k+7:8k` (20_memory.md R44). -/
def mapOfWire (byte0 byte1 byte2 byte3 byte4 byte5 : Byte) : BitVec 48 := byte5 ++ byte4 ++ byte3 ++ byte2 ++ byte1 ++ byte0

/-- The six bytes of a map in read order (20_memory.md R44). -/
def mapToWire (m : BitVec 48) : List Byte := (List.range 6).map (mapByte m)

/-- Any other multi-byte value of the bus, "big-endian on the wire" (20_memory.md R42, R45). -/
def bigEndian (bytes : List Byte) : Nat := bytes.foldl (fun n b => n * 256 + b.toNat) 0

/-! ## The input bits an operation reads -/

/-- The bits of `a` an operation reads (30_encoding.md R52). -/
def readsA : Instr → BitVec 48
  | .tmo2mclk _ => 0x00000000FFFF
  | .mclk2tmo _ => 0x0000FFFFFFFF
  | .mclk2us _ _ => 0x0000FFFFFFFF
  | .us2mclk _ _ => 0x0000FFFFFFFF
  | .vcsel2pclk _ => 0x0000000000FF
  | .spadinfo _ => 0x0000000000FF
  | .spadmap _ _ _ => 0xFFFFFFFFFFFF
  | .reserved0 => 0
  | .reserved8F _ => 0

/-- The bits of `b` an operation reads (30_encoding.md R52). -/
def readsB : Instr → BitVec 16
  | .tmo2mclk _ => 0
  | .mclk2tmo _ => 0
  | .mclk2us _ _ => 0xFFFF
  | .us2mclk _ _ => 0xFFFF
  | .vcsel2pclk _ => 0
  | .spadinfo _ => 0
  | .spadmap _ _ _ => 0x01FF
  | .reserved0 => 0
  | .reserved8F _ => 0

/-- The instruction on the ports when `op` and every operand bit it reads is driven and stable, none otherwise: the outputs are
then unspecified (70_reset_and_hazards.md R150). -/
def settledInstr (p : Inputs) : Option Instr :=
  if p.opDriven = BitVec.allOnes 4 ∧ p.aDriven &&& readsA (decode p.command) = readsA (decode p.command) ∧
      p.bDriven &&& readsB (decode p.command) = readsB (decode p.command) then
    some (decode p.command)
  else none

end Sys2Proof.Machine
end

