-- ==== Sys2Proof/Machine/Ops.lean ====
section
/-! DEFINITION. The shared operations: the pseudocode primitives (00_scope.md R12), driving the output ports, and using the last outcome.
The block has no memory, no register and no trap (20_memory.md R40, 10_state.md R21, 60_exceptions.md R130), so there is no
operation over them. -/

namespace Sys2Proof.Machine

/-- The number of 1 bits of `v` at indices `lo` up to but not at `hi`: `popcount(v[hi-1:lo])`, 0 for an empty range. -/
def popcountRange {w : Nat} (v : BitVec w) (lo : Nat) : Nat → Nat
  | 0 => 0
  | hi + 1 => popcountRange v lo hi + if lo ≤ hi ∧ v.getLsbD hi = true then 1 else 0

/-- `popcount(v)`, the number of 1 bits (00_scope.md R12). -/
def popcount {w : Nat} (v : BitVec w) : Nat := popcountRange v 0 w

/-- `bitlen(v)`, "the number of bits needed to write `v`; `bitlen(0) = 0`" (00_scope.md R12). -/
def bitlen (v : Nat) : Nat := if v = 0 then 0 else Nat.log2 v + 1

/-- A 32-bit count or time on `y`: `zext_48(exact mod 2^32)` (00_scope.md R11, 40_timeout.md R70). -/
def resultY (exact : Nat) : PortY := BitVec.ofNat 48 (exact % Config.resultLimit)

/-- `OVF` is 1 exactly when the exact result does not fit 32 bits (10_state.md R26). -/
def overflowFlag (exact : Nat) : Flags := raiseIf (decide (Config.resultLimit ≤ exact)) .ovf

/-- The end of every command: the outputs are driven and recorded as `Last`, and nothing else changes (10_state.md R27,
20_memory.md R47). A raised flag transfers no control and stops nothing (60_exceptions.md R130). -/
def complete (o : Outputs) (s : State) : Host.Outcome State Fault Refusal := .next { s with last := some o }

/-- The outputs while an input bit the operation reads is undriven or changing: no value (70_reset_and_hazards.md R150). -/
def unsettled (s : State) : Host.Outcome State Fault Refusal := .next { s with last := none }

/-- The host takes the last outcome as a value: it faults where `Last` holds none (10_state.md R27) and on a flagged outcome
(60_exceptions.md R131, R132, R134). -/
def useLast (s : State) : Except Fault Outputs :=
  match s.last with
  | none => .error .noValue
  | some o => asValue o

/-- The step in which the host uses the last outcome. The state is unchanged: the value goes to the host's own storage, which
is no part of the block (10_state.md R21). -/
def useStep (s : State) : Host.Outcome State Fault Refusal :=
  match useLast s with
  | .ok _ => .next s
  | .error e => .fault e

end Sys2Proof.Machine
end

