-- ==== Sys2Proof/Machine/Clock.lean ====
section
/-! DEFINITION. The clock conversion family: MCLK2US, US2MCLK and VCSEL2PCLK (unit CONV), 41_clock_conversion.md. -/

namespace Sys2Proof.Machine

/-- The macro period `MP(p) = (2304 * p * 1655 + 500) // 1000`, in exact naturals (41_clock_conversion.md R90). -/
def macroPeriod (p : Nat) : Nat := (Config.mpK1 * p * Config.mpK2 + Config.mpRound) / Config.mpDiv

/-- `exact = (m * q + q // 2) // 1000` (41_clock_conversion.md R91). -/
def usExact (m p : Nat) : Nat := (m * macroPeriod p + macroPeriod p / 2) / Config.mpDiv

/-- The outputs of MCLK2US (41_clock_conversion.md R91, R92). -/
def evalMclk2us (mclks : BitVec 32) (vcselPclks : BitVec 16) : Outputs :=
  { y := resultY (usExact mclks.toNat vcselPclks.toNat), z := 0, f := overflowFlag (usExact mclks.toNat vcselPclks.toNat) }

/-- MCLK2US (41_clock_conversion.md R91). -/
def execMclk2us (mclks : BitVec 32) (vcselPclks : BitVec 16) (s : State) : Host.Outcome State Fault Refusal :=
  complete (evalMclk2us mclks vcselPclks) s

/-- `exact = (u * 1000 + q // 2) // q` for `q != 0` (41_clock_conversion.md R94). -/
def mclkExact (u p : Nat) : Nat := (u * Config.mpDiv + macroPeriod p / 2) / macroPeriod p

/-- The outputs of US2MCLK: with `q = 0`, `y = 0` and `DZ`; else the count, unflagged (41_clock_conversion.md R94, R95). -/
def evalUs2mclk (us : BitVec 32) (vcselPclks : BitVec 16) : Outputs :=
  if macroPeriod vcselPclks.toNat = 0 then { y := 0, z := 0, f := raise .dz }
  else { y := BitVec.ofNat 48 (mclkExact us.toNat vcselPclks.toNat), z := 0, f := 0 }

/-- US2MCLK (41_clock_conversion.md R94). -/
def execUs2mclk (us : BitVec 32) (vcselPclks : BitVec 16) (s : State) : Host.Outcome State Fault Refusal :=
  complete (evalUs2mclk us vcselPclks) s

/-- The outputs of VCSEL2PCLK: `(reg + 1) * 2` (41_clock_conversion.md R97). -/
def evalVcsel2pclk (reg : BitVec 8) : Outputs := { y := BitVec.ofNat 48 ((reg.toNat + 1) * 2), z := 0, f := 0 }

/-- VCSEL2PCLK (41_clock_conversion.md R97). -/
def execVcsel2pclk (reg : BitVec 8) (s : State) : Host.Outcome State Fault Refusal := complete (evalVcsel2pclk reg) s

end Sys2Proof.Machine
end

