-- ==== Sys2Proof/Machine/Reserved.lean ====
section
/-! DEFINITION. The reserved operation codes (30_encoding.md R54, 60_exceptions.md R131). -/

namespace Sys2Proof.Machine

/-- The outputs of a reserved command: `y <- 0 ; z <- 0 ; f <- 0b0001` (30_encoding.md R54). It counts as `Fault(ILL)`
(`flagFault`, 60_exceptions.md R131), never as a computed zero. -/
def illegalOutputs : Outputs := { y := 0, z := 0, f := raise .ill }

/-- `op = 0x0` (30_encoding.md R54). -/
def evalReserved0 : Outputs := illegalOutputs

/-- `op = 0x0` (30_encoding.md R54). -/
def execReserved0 (s : State) : Host.Outcome State Fault Refusal := complete evalReserved0 s

/-- `op = 0x8 .. 0xF`, whatever `op[2:0]` is (30_encoding.md R54). -/
def evalReserved8F (_low : BitVec 3) : Outputs := illegalOutputs

/-- `op = 0x8 .. 0xF` (30_encoding.md R54). -/
def execReserved8F (low : BitVec 3) (s : State) : Host.Outcome State Fault Refusal := complete (evalReserved8F low) s

end Sys2Proof.Machine
end

