-- ==== Sys2Proof/Machine/Spad.lean ====
section
/-! DEFINITION. The SPAD reference-map family: SPADINFO and SPADMAP (unit SPAD), 42_spad.md. -/

namespace Sys2Proof.Machine

/-! ## SPADINFO -/

/-- The outputs of SPADINFO: `{ap, 0b0, count}` (42_spad.md R110). -/
def evalSpadinfo (info : BitVec 8) : Outputs :=
  { y := (BitVec.ofBool (infoAperture info) ++ 0#1 ++ infoCount info).setWidth 48, z := 0, f := 0 }

/-- SPADINFO (42_spad.md R110). -/
def execSpadinfo (info : BitVec 8) (s : State) : Host.Outcome State Fault Refusal := complete (evalSpadinfo info) s

/-! ## The bit-field shifter -/

/-- The read of map bit `i`: `(byte[i / 8] >> (i mod 8)) & 1` (42_spad.md R112). -/
def readMapBit (m : BitVec 48) (i : Nat) : Bool := (mapByte m (i / 8) >>> (i % 8)) &&& 1#8 == 1#8

/-- The matching single-bit clear for writes: bit `i mod 8` of byte `i / 8` (42_spad.md R112, 20_memory.md R44). -/
def clearMapBit (m : BitVec 48) (i : Nat) : BitVec 48 := m &&& ~~~((1#48 <<< (i % 8)) <<< (8 * (i / 8)))

/-! ## SPADMAP -/

/-- The map being built and the running enabled count (42_spad.md R113, R114). -/
structure SpadRun where
  out : BitVec 48
  en  : Nat
  deriving DecidableEq, Repr

/-- The first eligible index: "12 if ap == 1 else 0" (42_spad.md R113). -/
def spadFirst (isAperture : Bool) : Nat := if isAperture then Config.spadApertureFirst else Config.spadNonapertureFirst

/-- The visit of bit `i` (42_spad.md R113). -/
def spadVisit (src : BitVec 48) (count first : Nat) (r : SpadRun) (i : Nat) : SpadRun :=
  if i < first ∨ r.en = count then { r with out := clearMapBit r.out i }
  else if readMapBit src i then { r with en := r.en + 1 }
  else r

/-- The visits of bits 0 up to but not at `n`, in index order (42_spad.md R113). -/
def spadLoop (src : BitVec 48) (count first : Nat) : Nat → SpadRun
  | 0 => { out := src, en := 0 }
  | n + 1 => spadVisit src count first (spadLoop src count first n) n

/-- The outputs of SPADMAP (42_spad.md R113, R114): the loop runs over bits 0 .. 47 (90_conflicts.md C4). -/
def evalSpadmap (refSpad : BitVec 48) (count : BitVec 8) (isAperture : Bool) : Outputs :=
  let r := spadLoop refSpad count.toNat (spadFirst isAperture) Config.spadBits
  { y := r.out, z := BitVec.ofNat 8 r.en, f := 0 }

/-- SPADMAP (42_spad.md R113). -/
def execSpadmap (refSpad : BitVec 48) (count : BitVec 8) (isAperture : Bool) (s : State) :
    Host.Outcome State Fault Refusal := complete (evalSpadmap refSpad count isAperture) s

/-- Bit `i` of `y` in the combinational form of SPADMAP: a prefix popcount and a comparator (42_spad.md R115). -/
def spadSelects (src : BitVec 48) (count first i : Nat) : Bool :=
  src.getLsbD i && decide (first ≤ i) && decide (popcountRange src first i < count)

end Sys2Proof.Machine
end

