-- ==== Sys2Proof/Machine/Timeout.lean ====
section
/-! DEFINITION. The timeout pair family: TMO2MCLK (unit TENC) and MCLK2TMO (unit TDEC), 40_timeout.md. -/

namespace Sys2Proof.Machine

/-! ## TMO2MCLK -/

/-- `exact = lsb * 2^msb + 1`, a natural number with no width (40_timeout.md R70). -/
def tmoExact (raw : BitVec 16) : Nat := (pairLsb raw).toNat * 2 ^ (pairMsb raw).toNat + 1

/-- The outputs of TMO2MCLK (40_timeout.md R70, R71). -/
def evalTmo2mclk (raw : BitVec 16) : Outputs :=
  { y := resultY (tmoExact raw), z := 0, f := overflowFlag (tmoExact raw) }

/-- TMO2MCLK (40_timeout.md R70). -/
def execTmo2mclk (raw : BitVec 16) (s : State) : Host.Outcome State Fault Refusal := complete (evalTmo2mclk raw) s

/-- The barrel shifter and incrementer an implementation may use for `y[31:0]` of TMO2MCLK (40_timeout.md R72). -/
def tencShifterY (raw : BitVec 16) : BitVec 32 := ((pairLsb raw).setWidth 32 <<< (pairMsb raw).toNat) + 1

/-- The overflow test of the same form: `lsb != 0 and (msb >= 32 or (lsb << msb) >= 2^32)` (40_timeout.md R72). -/
def tencShifterOvf (raw : BitVec 16) : Bool :=
  pairLsb raw != 0 &&
    (decide (32 ≤ (pairMsb raw).toNat) || decide (2 ^ 32 ≤ (pairLsb raw).toNat <<< (pairMsb raw).toNat))

/-! ## MCLK2TMO -/

/-- The loop of 40_timeout.md R75, "until it fits in 8 bits", from the pair `(ls, ms)`; the first argument bounds the number of
turns (log entry 10). -/
def compressLoop : Nat → Nat → Nat → Nat × Nat
  | 0, ls, ms => (ls, ms)
  | fuel + 1, ls, ms => if Config.tmoByteMask < ls then compressLoop fuel (ls >>> 1) (ms + 1) else (ls, ms)

/-- `r` of 40_timeout.md R75: 0 for a count of 0, else `(ms << 8) | ls`. Sixteen turns are enough for `ls < 2^16`. -/
def compressCount (m : Nat) : Nat :=
  if m = 0 then 0
  else
    let p := compressLoop 16 (min m Config.tmoClamp - 1) 0
    (p.2 <<< 8) ||| p.1

/-- The outputs of MCLK2TMO (40_timeout.md R75, R76). -/
def evalMclk2tmo (mclks : BitVec 32) : Outputs :=
  { y := BitVec.ofNat 48 (compressCount mclks.toNat), z := 0, f := raiseIf (decide (Config.tmoClamp < mclks.toNat)) .sat }

/-- MCLK2TMO (40_timeout.md R75). -/
def execMclk2tmo (mclks : BitVec 32) (s : State) : Host.Outcome State Fault Refusal := complete (evalMclk2tmo mclks) s

/-- The leading-one detector and shifter an implementation may use for MCLK2TMO with `m >= 1`: `v = min(m, 0xFFFF) - 1`,
`ms = max(0, bitlen(v) - 8)`, `ls = v >> ms`, as `(ls, ms)` (40_timeout.md R77). -/
def tdecShifter (m : Nat) : Nat × Nat :=
  let v := min m Config.tmoClamp - 1
  let ms := bitlen v - 8
  (v >>> ms, ms)

end Sys2Proof.Machine
end

