-- ==== Sys2Proof/Machine/Dispatch.lean ====
section
/-! DEFINITION. The meaning of each instruction, one arm per constructor. -/

namespace Sys2Proof.Machine

/-- One command's evaluation (00_scope.md R13). -/
def exec (i : Instr) (s : State) : Host.Outcome State Fault Refusal :=
  match i with
  | .tmo2mclk raw => Sys2Proof.Machine.execTmo2mclk raw s
  | .mclk2tmo mclks => Sys2Proof.Machine.execMclk2tmo mclks s
  | .mclk2us mclks vcselPclks => Sys2Proof.Machine.execMclk2us mclks vcselPclks s
  | .us2mclk us vcselPclks => Sys2Proof.Machine.execUs2mclk us vcselPclks s
  | .vcsel2pclk reg => Sys2Proof.Machine.execVcsel2pclk reg s
  | .spadinfo info => Sys2Proof.Machine.execSpadinfo info s
  | .spadmap refSpad count isAperture => Sys2Proof.Machine.execSpadmap refSpad count isAperture s
  | .reserved0 => Sys2Proof.Machine.execReserved0 s
  | .reserved8F low => Sys2Proof.Machine.execReserved8F low s

end Sys2Proof.Machine
end

