-- ==== Sys2Proof/Machine/Step.lean ====
section
/-! DEFINITION. One step of the host and the block, and the placing of the next command. -/

namespace Sys2Proof.Machine

/-- The block settles on the inputs that stand on its ports: it runs the command they select, or gives its outputs no value
(70_reset_and_hazards.md R150, R153). -/
def settle (s : State) : Host.Outcome State Fault Refusal :=
  match settledInstr s.inputs with
  | some i => exec i s
  | none => unsettled s

/-- One step: the host's next action, and the evaluation it causes. With no action listed the host holds its inputs, and the
block's outputs are `Eval` of them (10_state.md R32; log entry 5). -/
def step (s : State) : Host.Outcome State Fault Refusal :=
  match s.host with
  | [] => settle s
  | .present inp :: rest => settle { s with inputs := inp, host := rest }
  | .use :: rest => useStep { s with host := rest }

/-- The command of a table word, every bit from `nbits` up 0, becomes what the host presents next, before what it already had
listed; nothing else changes (log entry 6). -/
def State.withFetchWord (s : State) (nbits w : Nat) : State :=
  { s with host := .present (Inputs.ofCommand (commandOfWord (BitVec.ofNat 68 (w % 2 ^ nbits)))) :: s.host }

end Sys2Proof.Machine
end

