-- ==== Sys2Proof/Machine/Eval.lean ====
section
/-! DEFINITION. `Eval`: the outputs as a function of the command alone (10_state.md R27), and what settled inputs drive. -/

namespace Sys2Proof.Machine

/-- `Eval`, operation by operation (10_state.md R27). -/
def eval : Instr → Outputs
  | .tmo2mclk raw => evalTmo2mclk raw
  | .mclk2tmo mclks => evalMclk2tmo mclks
  | .mclk2us mclks vcselPclks => evalMclk2us mclks vcselPclks
  | .us2mclk us vcselPclks => evalUs2mclk us vcselPclks
  | .vcsel2pclk reg => evalVcsel2pclk reg
  | .spadinfo info => evalSpadinfo info
  | .spadmap refSpad count isAperture => evalSpadmap refSpad count isAperture
  | .reserved0 => evalReserved0
  | .reserved8F low => evalReserved8F low

/-- What the output ports show for these inputs: `Eval` of the command, or no value while a bit it reads is undriven or changing
(10_state.md R32, 70_reset_and_hazards.md R150). -/
def settledOutputs (p : Inputs) : Option Outputs := (settledInstr p).map eval

end Sys2Proof.Machine
end

