-- ==== Sys2Proof/Machine/HostSequences.lean ====
section
/-! DEFINITION. The host's command sequences for the cumulative final-range timeout (70_reset_and_hazards.md R155). The additions,
subtractions and the enable test are the host's own; the block does none of them. -/

namespace Sys2Proof.Machine

/-- The host presents a command and uses its outcome as a value (00_scope.md R14). -/
def useCommand (i : Instr) : Except Fault Outputs := asValue (eval i)

/-- A clock count as the operand `mclks`, 32 bits unsigned (30_encoding.md R52); a host's own number beyond that faults
(log entry 13). -/
def hostCount (n : Nat) : Except Fault (BitVec 32) :=
  if n < Config.resultLimit then .ok (BitVec.ofNat 32 n) else .error .hostRange

/-- The host's own subtraction, only where the left side is not smaller (00_scope.md R11); it faults otherwise (log entry 13). -/
def hostSubtract (x y : Nat) : Except Fault (BitVec 32) :=
  if y ≤ x then hostCount (x - y) else .error .hostRange

/-- The final-range count the host reads: TMO2MCLK the register value, subtract TMO2MCLK of the pre-range register value if
pre-range is enabled (70_reset_and_hazards.md R155). -/
def readFinalCount (finalPair prePair : BitVec 16) (preEnabled : Bool) : Except Fault (BitVec 32) :=
  match useCommand (.tmo2mclk finalPair), preEnabled with
  | .error e, _ => .error e
  | .ok fin, false => hostCount fin.y.toNat
  | .ok fin, true =>
    match useCommand (.tmo2mclk prePair) with
    | .error e => .error e
    | .ok pre => hostSubtract fin.y.toNat pre.y.toNat

/-- To read the final-range timeout in microseconds: the final-range count, then MCLK2US with the final-range pulse period
(70_reset_and_hazards.md R155). -/
def readFinalRange (finalPair prePair finalPclks : BitVec 16) (preEnabled : Bool) : Except Fault Outputs :=
  match readFinalCount finalPair prePair preEnabled with
  | .error e => .error e
  | .ok count => useCommand (.mclk2us count finalPclks)

/-- To write the final-range timeout: US2MCLK with the final-range pulse period, add the pre-range clock count if pre-range is
enabled, then MCLK2TMO (70_reset_and_hazards.md R155). -/
def writeFinalRange (us : BitVec 32) (finalPclks : BitVec 16) (preMclks : BitVec 32) (preEnabled : Bool) :
    Except Fault Outputs :=
  match useCommand (.us2mclk us finalPclks) with
  | .error e => .error e
  | .ok mclks =>
    match hostCount (mclks.y.toNat + if preEnabled then preMclks.toNat else 0) with
    | .error e => .error e
    | .ok count => useCommand (.mclk2tmo count)

end Sys2Proof.Machine
end

