-- ==== Sys2Proof/Safety.lean ====
section
/-! DEFINITION. What counts as a safe run, and the vocabulary of the claims. -/

namespace Sys2Proof.Machine

/-- The state with `Last = (y, z, f)`, and nothing else changed. -/
def State.driving (s : State) (y : PortY) (z : PortZ) (f : Flags) : State := { s with last := some { y := y, z := z, f := f } }

/-- The outputs an evaluation can leave: at most one flag (60_exceptions.md R136), what each flag comes with (R131 to R134),
and an enabled count that is the popcount of the map beside it (42_spad.md R114, R116). -/
structure LegalOutputs (o : Outputs) : Prop where
  oneFlag : o.f = 0x0 ∨ o.f = 0x1 ∨ o.f = 0x2 ∨ o.f = 0x4 ∨ o.f = 0x8
  illegalDrivesZero : o.f = 0x1 → o.y = 0
  overflowFitsResult : o.f = 0x2 → o.y.toNat < 2 ^ 32
  clampDrivesLargestPair : o.f = 0x4 → o.y = 0x08FF
  zeroPeriodDrivesZero : o.f = 0x8 → o.y = 0
  flaggedHasNoCount : o.f ≠ 0 → o.z = 0
  countAtMost48 : o.z.toNat ≤ 48
  countIsPopcount : o.z ≠ 0 → popcount o.y = o.z.toNat

/-- `Last` holds no value or legal outputs. -/
def LegalState (s : State) : Prop := ∀ o, s.last = some o → LegalOutputs o

/-- "At all times … its outputs are `Eval` of whatever its inputs hold", and no value while a bit that is read is undriven
(10_state.md R32, 70_reset_and_hazards.md R150). -/
def OutputsFollowInputs (s : State) : Prop := s.last = settledOutputs s.inputs

/-- `k` steps, stopping at the first fault: `Host.Core.run` of this machine (`run_eq_core_run`), over the model's own types. -/
def run : Nat → State → Host.Outcome State Fault Refusal
  | 0, s => .next s
  | k + 1, s =>
    match step s with
    | .next s' => run k s'
    | .fault e => .fault e
    | .refused r => .refused r

/-- A run of `k` steps is safe when it completes: no `use` of it meets a missing value, an ILL, an OVF or a DZ
(60_exceptions.md R131, R132, R134; 10_state.md R27). -/
def SafeRun (k : Nat) (s : State) : Prop := ∃ t, run k s = .next t

/-- A canonical timeout pair: exponent 0, or exponent 1 .. 8 with a mantissa of `0x80` or more (40_timeout.md R78). -/
def canonicalPair (r : BitVec 16) : Bool :=
  decide (r.toNat / 256 = 0) || (decide (r.toNat / 256 ≤ 8) && decide (0x80 ≤ r.toNat % 256))

/-- The pair MCLK2TMO gives for a count, as the operand `raw` of TMO2MCLK (20_memory.md R43). -/
def compressed (m : BitVec 32) : BitVec 16 := (eval (.mclk2tmo m)).y.setWidth 16

/-- The count TMO2MCLK gives for a pair, `y[31:0]`. -/
def expanded (r : BitVec 16) : BitVec 32 := (eval (.tmo2mclk r)).y.setWidth 32

/-! ## Assembler operands, as the claims speak of them (30_encoding.md R56) -/

/-- The operand has the value `n`: it is that literal, or a host variable that holds it. -/
def AsmOperandIs (env : List Nat) (v : AsmOperand) (n : Nat) : Prop := v = .lit n ∨ ∃ k, v = .var k ∧ env[k]? = some n

/-- The field has the value `n`: "Omitted fields are 0", and any other field has its operand's value. -/
def AsmFieldIs (env : List Nat) (x : Option AsmOperand) (n : Nat) : Prop :=
  (x = none ∧ n = 0) ∨ ∃ v, x = some v ∧ AsmOperandIs env v n

/-- The map field has the value `n`: it is omitted and `n` is 0, it is one operand of that value, or it is six bytes in read
order and `n = b0 + 2^8 * b1 + … + 2^40 * b5`. -/
def AsmMapIs (env : List Nat) (m : Option AsmMap) (n : Nat) : Prop :=
  (m = none ∧ n = 0) ∨ (∃ v, m = some (.word v) ∧ AsmOperandIs env v n) ∨
  ∃ v0 v1 v2 v3 v4 v5 b0 b1 b2 b3 b4 b5,
    m = some (.bytes v0 v1 v2 v3 v4 v5) ∧
    (AsmOperandIs env v0 b0 ∧ b0 < 256) ∧ (AsmOperandIs env v1 b1 ∧ b1 < 256) ∧ (AsmOperandIs env v2 b2 ∧ b2 < 256) ∧
    (AsmOperandIs env v3 b3 ∧ b3 < 256) ∧ (AsmOperandIs env v4 b4 ∧ b4 < 256) ∧ (AsmOperandIs env v5 b5 ∧ b5 < 256) ∧
    n = b0 + 2 ^ 8 * b1 + 2 ^ 16 * b2 + 2 ^ 24 * b3 + 2 ^ 32 * b4 + 2 ^ 40 * b5

end Sys2Proof.Machine
end

