-- ==== Sys2Proof/Certificates/Slice0/Obligations.lean ====
section
/-! DEFINITION. The statements for the provers, each with the rule of spec/ it formalises. -/

open Sys2Proof Sys2Proof.Machine

/-! ## TMO2MCLK (unit TENC) -/

/-- 40_timeout.md R70: `op = 0x1` with `raw = a[15:0]` completes with `y = (lsb * 2^msb + 1) mod 2^32`, `z = 0`, and `f = OVF`
exactly when the exact value is 2^32 or more; `a[47:16]` and `b` are ignored and nothing else changes. -/
def Obligations.Tmo2mclkExpandsPair : Prop :=
  (∀ (raw : BitVec 16) (s : State),
    let exact := raw.toNat % 256 * 2 ^ (raw.toNat / 256) + 1
    exec (.tmo2mclk raw) s = .next (s.driving (BitVec.ofNat 48 (exact % 2 ^ 32)) 0 (if 2 ^ 32 ≤ exact then 0x2 else 0x0))) ∧
  ∀ c : Command, c.op = 0x1 → decode c = .tmo2mclk (c.a.extractLsb' 0 16)

/-- 40_timeout.md R71 (which the spec marks as derived from R70): when `OVF` is 1, both ways of saying it, the count of pairs
that set it, and the exact value where it is 0. -/
def Obligations.Tmo2mclkOverflowsExactly : Prop :=
  (∀ raw : BitVec 16,
    let lsb := raw.toNat % 256
    let msb := raw.toNat / 256
    (flagSet (eval (.tmo2mclk raw)).f .ovf = true ↔ 2 ^ 32 ≤ lsb * 2 ^ msb + 1) ∧
    (flagSet (eval (.tmo2mclk raw)).f .ovf = true ↔ lsb ≠ 0 ∧ 2 ^ 32 ≤ lsb * 2 ^ msb) ∧
    (msb = 0 → flagSet (eval (.tmo2mclk raw)).f .ovf = false) ∧
    (flagSet (eval (.tmo2mclk raw)).f .ovf = false → (eval (.tmo2mclk raw)).y.toNat = lsb * 2 ^ msb + 1)) ∧
  ((List.range 256).map fun msb => (List.range 256).countP fun lsb =>
      flagSet (eval (.tmo2mclk (BitVec.ofNat 8 msb ++ BitVec.ofNat 8 lsb))).f .ovf).sum = 58658

/-- 40_timeout.md R72 (derived from R70 and R71 by the spec): the barrel shift and incrementer give the outputs of R70, and the
spec's reasons why (no shift of 32 or more leaves a bit, the shifted byte is even from `msb = 1`, the increment never carries). -/
def Obligations.TencShifterEqualsExpansion : Prop :=
  ∀ raw : BitVec 16,
    (eval (.tmo2mclk raw)).y = (tencShifterY raw).setWidth 48 ∧
    flagSet (eval (.tmo2mclk raw)).f .ovf = tencShifterOvf raw ∧
    (32 ≤ (pairMsb raw).toNat → (pairLsb raw).setWidth 32 <<< (pairMsb raw).toNat = 0#32) ∧
    (1 ≤ (pairMsb raw).toNat → ((pairLsb raw).setWidth 32 <<< (pairMsb raw).toNat : BitVec 32).getLsbD 0 = false) ∧
    ((pairLsb raw).setWidth 32 <<< (pairMsb raw).toNat : BitVec 32).toNat + 1 < 2 ^ 32

/-- 40_timeout.md R73 (derived by the spec): TMO2MCLK never yields 0, even when `OVF = 1`; the exact value is odd from `msb = 1`
and in 1 .. 256 at `msb = 0`. -/
def Obligations.Tmo2mclkNeverYieldsZero : Prop :=
  ∀ raw : BitVec 16,
    1 ≤ (expanded raw).toNat ∧ 1 ≤ tmoExact raw ∧
    (1 ≤ raw.toNat / 256 → tmoExact raw % 2 = 1) ∧
    (raw.toNat / 256 = 0 → 1 ≤ tmoExact raw ∧ tmoExact raw ≤ 256)

/-! ## MCLK2TMO (unit TDEC) -/

/-- 40_timeout.md R75 and R76: `op = 0x2` with `mclks = a[31:0]` completes with the pair `(ms << 8) | ls`, where `ms` is the least
shift that makes `(min(m, 0xFFFF) - 1) >> ms` fit 8 bits and `ls` is that value (both 0 for `m = 0`), and with `f = SAT`
exactly when `m > 0xFFFF`; nothing else changes. -/
def Obligations.Mclk2tmoCompressesCount : Prop :=
  (∀ (mclks : BitVec 32) (s : State), ∃ ms ls : Nat,
    exec (.mclk2tmo mclks) s = .next (s.driving (BitVec.ofNat 48 (ms * 256 + ls)) 0 (if 0xFFFF < mclks.toNat then 0x4 else 0x0)) ∧
    ls ≤ 0xFF ∧
    (mclks.toNat = 0 → ms = 0 ∧ ls = 0) ∧
    (mclks.toNat ≠ 0 → ls = (min mclks.toNat 0xFFFF - 1) / 2 ^ ms ∧
      ∀ k < ms, 0xFF < (min mclks.toNat 0xFFFF - 1) / 2 ^ k)) ∧
  ∀ c : Command, c.op = 0x2 → decode c = .mclk2tmo (c.a.extractLsb' 0 32)

/-- 40_timeout.md R77 (derived from R75 by the spec): the leading-one detector and shifter give the loop's pair for every count
from 1, and never shift by more than 8. -/
def Obligations.TdecShifterEqualsLoop : Prop :=
  ∀ m : BitVec 32, 1 ≤ m.toNat →
    (eval (.mclk2tmo m)).y = BitVec.ofNat 48 ((tdecShifter m.toNat).2 * 256 + (tdecShifter m.toNat).1) ∧
    (tdecShifter m.toNat).2 ≤ 8 ∧ (tdecShifter m.toNat).1 ≤ 0xFF

/-- 40_timeout.md R78 (derived by the spec): the output range of MCLK2TMO; its outputs are exactly the canonical pairs, 256 with
exponent 0 and 128 with each exponent 1 .. 8, 1,280 in all; the largest is `0x08FF`. -/
def Obligations.Mclk2tmoYieldsCanonicalPairs : Prop :=
  (∀ m : BitVec 32,
    let y := (eval (.mclk2tmo m)).y
    y = (compressed m).setWidth 48 ∧ y.toNat / 256 ≤ 8 ∧ y.extractLsb' 12 4 = 0 ∧ y.toNat ≤ 0x08FF ∧
    (1 ≤ y.toNat / 256 → 0x80 ≤ y.toNat % 256) ∧
    (y.toNat / 256 = 0 → (1 ≤ m.toNat ∧ m.toNat ≤ 256 ∧ y.toNat % 256 = m.toNat - 1) ∨ (m.toNat = 0 ∧ y.toNat % 256 = 0))) ∧
  (∀ r : BitVec 16, (∃ m, compressed m = r) ↔ canonicalPair r = true) ∧
  (compressed 0xFFFF = 0x08FF) ∧
  ((List.range 256).map fun ms => (List.range 256).countP fun ls =>
      canonicalPair (BitVec.ofNat 8 ms ++ BitVec.ofNat 8 ls)) = [256, 128, 128, 128, 128, 128, 128, 128, 128] ++ List.replicate 247 0

/-- 40_timeout.md R79 (derived by the spec from R70 and R75): the round trip of every count in 1 .. 0xFFFF loses at most
`2^ms - 1`, never gains, is exact exactly when the `ms` low bits of `m - 1` are 0 (so for every count up to 257), and never
overflows. -/
def Obligations.TimeoutRoundTripLosesLowBitsOnly : Prop :=
  ∀ m : BitVec 32, 1 ≤ m.toNat → m.toNat ≤ 0xFFFF →
    let ms := (compressed m).toNat / 256
    let d := (expanded (compressed m)).toNat
    m.toNat ≤ d + (2 ^ ms - 1) ∧ d ≤ m.toNat ∧ (d = m.toNat ↔ (m.toNat - 1) % 2 ^ ms = 0) ∧
    (m.toNat ≤ 257 → d = m.toNat) ∧ (eval (.tmo2mclk (compressed m))).f = 0

/-- 40_timeout.md R80 (derived by the spec): every canonical pair is a fixed point of expand-then-compress, and a pair that is not
canonical still expands but is never produced. -/
def Obligations.CanonicalPairsAreFixedPoints : Prop :=
  (∀ r : BitVec 16, canonicalPair r = true → compressed (expanded r) = r) ∧
  (∀ r : BitVec 16, canonicalPair r = false ↔
    (1 ≤ r.toNat / 256 ∧ r.toNat / 256 ≤ 8 ∧ r.toNat % 256 < 0x80) ∨ 9 ≤ r.toNat / 256) ∧
  ∀ r : BitVec 16, canonicalPair r = false → ∀ m, compressed m ≠ r

/-- 40_timeout.md R81 (derived from R75 by the spec): compress-then-expand is monotone over 1 .. 0xFFFF, and the two clamps. -/
def Obligations.TimeoutRoundTripMonotone : Prop :=
  (∀ m n : BitVec 32, 1 ≤ m.toNat → m.toNat ≤ n.toNat → n.toNat ≤ 0xFFFF →
    (expanded (compressed m)).toNat ≤ (expanded (compressed n)).toNat) ∧
  (∀ m : BitVec 32, 0xFFFF ≤ m.toNat → compressed m = 0x08FF) ∧
  compressed 0 = 0

/-! ## The clock conversions (unit CONV) -/

/-- 41_clock_conversion.md R90 (derived by the spec from the quoted formula): the macro period's formula, its range over the
16-bit periods, that it is strictly increasing, and the rule's table. -/
def Obligations.MacroPeriodValues : Prop :=
  (∀ p, macroPeriod p = (2304 * p * 1655 + 500) / 1000) ∧
  (∀ p, macroPeriod p = 0 ↔ p = 0) ∧ (∀ p, 1 ≤ p → 3813 ≤ macroPeriod p) ∧
  (∀ p q, p < q → macroPeriod p < macroPeriod q) ∧ (∀ p : BitVec 16, macroPeriod p.toNat < 2 ^ 28) ∧
  [0, 1, 2, 8, 10, 12, 14, 16, 18, 24, 512, 65535].map macroPeriod =
    [0, 3813, 7626, 30505, 38131, 45757, 53384, 61010, 68636, 91515, 1952317, 249892819]

/-- 41_clock_conversion.md R91: `op = 0x3` with `m = a[31:0]`, `p = b` completes with
`y = ((m * q + q // 2) // 1000) mod 2^32`, `z = 0` and `f = OVF` exactly when the exact quotient is 2^32 or more; nothing else
changes. -/
def Obligations.Mclk2usConverts : Prop :=
  (∀ (mclks : BitVec 32) (vcselPclks : BitVec 16) (s : State),
    let q := (2304 * vcselPclks.toNat * 1655 + 500) / 1000
    let exact := (mclks.toNat * q + q / 2) / 1000
    exec (.mclk2us mclks vcselPclks) s = .next (s.driving (BitVec.ofNat 48 (exact % 2 ^ 32)) 0 (if 2 ^ 32 ≤ exact then 0x2 else 0x0))) ∧
  ∀ c : Command, c.op = 0x3 → decode c = .mclk2us (c.a.extractLsb' 0 32) c.b

/-- 41_clock_conversion.md R92: `OVF` of MCLK2US, its two thresholds, and the exact value where it is 0. -/
def Obligations.Mclk2usOverflowsExactly : Prop :=
  (∀ (m : BitVec 32) (p : BitVec 16),
    let q := macroPeriod p.toNat
    (flagSet (eval (.mclk2us m p)).f .ovf = true ↔ 2 ^ 32 ≤ (m.toNat * q + q / 2) / 1000) ∧
    (flagSet (eval (.mclk2us m p)).f .ovf = false → (eval (.mclk2us m p)).y.toNat = (m.toNat * q + q / 2) / 1000)) ∧
  (∀ m : BitVec 32, flagSet (eval (.mclk2us m 14)).f .ovf = true ↔ 80454205 ≤ m.toNat) ∧
  ∀ m : BitVec 32, flagSet (eval (.mclk2us m 512)).f .ovf = true ↔ 2199933 ≤ m.toNat

/-- 41_clock_conversion.md R94 and R95: `op = 0x4` with `u = a[31:0]`, `p = b` completes; with `p = 0` it drives `y = 0` and `DZ`
alone, otherwise `y = (u * 1000 + q // 2) // q` and `f = 0`; the macro period is 0 exactly when `p` is; nothing else changes.
`DZ` counts as `Fault(DZ)` (R95): taking the outcome as a value faults (the form of that fault, a host's use, is log entry 1). -/
def Obligations.Us2mclkConverts : Prop :=
  (∀ (us : BitVec 32) (vcselPclks : BitVec 16) (s : State),
    let q := (2304 * vcselPclks.toNat * 1655 + 500) / 1000
    exec (.us2mclk us vcselPclks) s = .next
      (if q = 0 then s.driving 0 0 0x8 else s.driving (BitVec.ofNat 48 ((us.toNat * 1000 + q / 2) / q)) 0 0x0) ∧
    (q = 0 ↔ vcselPclks = 0) ∧
    (flagSet (eval (.us2mclk us vcselPclks)).f .dz = true ↔ vcselPclks = 0) ∧
    (vcselPclks = 0 → useCommand (.us2mclk us vcselPclks) = .error .dz)) ∧
  ∀ c : Command, c.op = 0x4 → decode c = .us2mclk (c.a.extractLsb' 0 32) c.b

/-- 41_clock_conversion.md R96 (derived by the spec from R90 and R94): US2MCLK's count is at most 1,126,401,074, reached at
`u = 2^32 - 1`, `p = 1`, so the 48-bit `y` holds the exact quotient and `OVF` is never set. -/
def Obligations.Us2mclkNeverOverflows : Prop :=
  (∀ (u : BitVec 32) (p : BitVec 16),
    (eval (.us2mclk u p)).y.toNat ≤ 1126401074 ∧ flagSet (eval (.us2mclk u p)).f .ovf = false ∧
    (p ≠ 0 → (eval (.us2mclk u p)).y.toNat = (u.toNat * 1000 + macroPeriod p.toNat / 2) / macroPeriod p.toNat)) ∧
  (eval (.us2mclk 0xFFFFFFFF 1)).y.toNat = 1126401074

/-- 41_clock_conversion.md R97: `op = 0x5` with `reg = a[7:0]` completes with `y = (reg + 1) * 2`, `z = 0`, `f = 0`; nothing else
changes. The result is even, in 2 .. 512, and as a period it never makes US2MCLK set `DZ`. -/
def Obligations.Vcsel2pclkDecodesPeriod : Prop :=
  (∀ (reg : BitVec 8) (s : State),
    exec (.vcsel2pclk reg) s = .next (s.driving (BitVec.ofNat 48 ((reg.toNat + 1) * 2)) 0 0) ∧
    (let y := (eval (.vcsel2pclk reg)).y
     2 ≤ y.toNat ∧ y.toNat ≤ 512 ∧ y.toNat % 2 = 0 ∧
     ∀ us : BitVec 32, flagSet (eval (.us2mclk us (y.setWidth 16))).f .dz = false)) ∧
  ∀ c : Command, c.op = 0x5 → decode c = .vcsel2pclk (c.a.extractLsb' 0 8)

/-- 41_clock_conversion.md R99 (derived by the spec from R91 and R94; the spec checked samples, this is for every operand): where
MCLK2US does not overflow and the period is not 0, converting back gives `m` or `m + 1`, and `m + 1` exactly when the macro
period is even and `m * q + q // 2` is a multiple of 1000. -/
def Obligations.ClockConversionInverse : Prop :=
  ∀ (m : BitVec 32) (p : BitVec 16), p ≠ 0 → flagSet (eval (.mclk2us m p)).f .ovf = false →
    let q := macroPeriod p.toNat
    let d := (eval (.us2mclk ((eval (.mclk2us m p)).y.setWidth 32) p)).y.toNat
    m.toNat ≤ d ∧ d ≤ m.toNat + 1 ∧ (d = m.toNat + 1 ↔ q % 2 = 0 ∧ (m.toNat * q + q / 2) % 1000 = 0)

/-- 41_clock_conversion.md R99, the listed periods (derived by the spec): exact for every count at the periods 12, 14, 16, 18 and
24 without overflow, and off by one, over the even periods 2 .. 512, only at multiples of 50. -/
def Obligations.ClockConversionExactPeriods : Prop :=
  ∀ (m : BitVec 32) (p : BitVec 16), flagSet (eval (.mclk2us m p)).f .ovf = false →
    let d := (eval (.us2mclk ((eval (.mclk2us m p)).y.setWidth 32) p)).y.toNat
    (p ∈ [12, 14, 16, 18, 24] → d = m.toNat) ∧
    (2 ≤ p.toNat → p.toNat ≤ 512 → p.toNat % 2 = 0 → p.toNat % 50 ≠ 0 → d = m.toNat)

/-- 41_clock_conversion.md R99, last sentence (derived by the spec): at period 24 the reverse composition moves a time up by 0 to
91 microseconds, and some time by 91. -/
def Obligations.ReverseConversionMovesUp : Prop :=
  (∀ u : BitVec 32, flagSet (eval (.mclk2us ((eval (.us2mclk u 24)).y.setWidth 32) 24)).f .ovf = false →
    let v := (eval (.mclk2us ((eval (.us2mclk u 24)).y.setWidth 32) 24)).y.toNat
    u.toNat ≤ v ∧ v ≤ u.toNat + 91) ∧
  ∃ u : BitVec 32, (eval (.mclk2us ((eval (.us2mclk u 24)).y.setWidth 32) 24)).y.toNat = u.toNat + 91

/-! ## The SPAD unit -/

/-- 42_spad.md R110: `op = 0x6` with `info = a[7:0]` completes with the count `info[6:0]` on `y[6:0]`, `y[7] = 0`, the aperture
`info[7]` on `y[8]`, `z = 0`, `f = 0`; nothing else changes. `y[15:0]`, passed to `b` of a SPADMAP, is its count and aperture. -/
def Obligations.SpadinfoSplitsByte : Prop :=
  (∀ (info : BitVec 8) (s : State),
    exec (.spadinfo info) s = .next (s.driving (BitVec.ofNat 48 (info.toNat % 128 + 256 * (info.toNat / 128))) 0 0)) ∧
  (∀ c : Command, c.op = 0x6 → decode c = .spadinfo (c.a.extractLsb' 0 8)) ∧
  ∀ (info : BitVec 8) (map : BitVec 48),
    decode { op := 0x7, a := map, b := (eval (.spadinfo info)).y.setWidth 16 } =
      .spadmap map (info &&& 0x7F) (info.getLsbD 7)

/-- 42_spad.md R112: index `i` names bit `i mod 8` of byte `i / 8`; the shifter's read of it is port bit `i`, and the matching
clear clears port bit `i` and no other. -/
def Obligations.SpadShifterNamesPortBit : Prop :=
  ∀ (m : BitVec 48) (i : Nat), i < 48 →
    readMapBit m i = m.getLsbD i ∧ (mapByte m (i / 8)).getLsbD (i % 8) = m.getLsbD i ∧
    ∀ j < 48, (clearMapBit m i).getLsbD j = (m.getLsbD j && decide (j ≠ i))

/-- 42_spad.md R113 and R114: `op = 0x7` with `refSpad = a`, `count = b[7:0]`, `isAperture = b[8]` completes with the map and the
running count that the loop leaves, `f = 0`, and nothing else changed. The loop visits bits 0 .. 47 in order from the source map
and a count of 0: a bit before the first eligible index, or met when the count already equals `count`, is forced to 0; else a
capable bit is kept and counted; else it stays 0. The count never exceeds 48. -/
def Obligations.SpadmapVisitsBitsInOrder : Prop :=
  (∀ (src : BitVec 48) (count : BitVec 8) (ap : Bool),
    ∃ r : Nat → BitVec 48 × Nat,
      r 0 = (src, 0) ∧ (r 48).2 ≤ 48 ∧
      (∀ s : State, exec (.spadmap src count ap) s = .next (s.driving (r 48).1 (BitVec.ofNat 8 (r 48).2) 0)) ∧
      ∀ i < 48,
        let hit := decide (i < if ap then 12 else 0) || decide ((r i).2 = count.toNat)
        (r (i + 1)).2 = (if hit then (r i).2 else if src.getLsbD i then (r i).2 + 1 else (r i).2) ∧
        ∀ j < 48, (r (i + 1)).1.getLsbD j = if j = i then !hit && src.getLsbD i else (r i).1.getLsbD j) ∧
  ∀ c : Command, c.op = 0x7 → decode c = .spadmap c.a (c.b.extractLsb' 0 8) (c.b.getLsbD 8)

/-- 42_spad.md R115 (derived from R113 by the spec): bit `i` of SPADMAP's `y` is 1 exactly when it is capable, eligible and fewer
than `count` capable eligible bits lie below it, and `z = min(count, capable eligible bits)`. -/
def Obligations.SpadmapSelectsByPrefixCount : Prop :=
  ∀ (src : BitVec 48) (count : BitVec 8) (ap : Bool) (s : State),
    let first := if ap then 12 else 0
    ∃ y : BitVec 48,
      exec (.spadmap src count ap) s = .next (s.driving y (BitVec.ofNat 8 (min count.toNat (popcountRange src first 48))) 0) ∧
      ∀ i < 48, y.getLsbD i =
        (src.getLsbD i && decide (first ≤ i) && decide (popcountRange src first i < count.toNat))

/-- 42_spad.md R116 (derived by the spec from R113 and R115) and R114: `z` is the popcount of `y`, at most 48; `y` is a subset of
the source; its bits below `first` are 0; its 1 bits are the lowest 1 bits of the source at or after `first`. -/
def Obligations.SpadmapKeepsLowestCapable : Prop :=
  ∀ (src : BitVec 48) (count : BitVec 8) (ap : Bool),
    let first := if ap then 12 else 0
    let o := eval (.spadmap src count ap)
    o.z.toNat = popcount o.y ∧ o.z.toNat ≤ 48 ∧ o.y &&& ~~~src = 0 ∧ (∀ i < first, o.y.getLsbD i = false) ∧
    ∀ i j, first ≤ j → j < i → src.getLsbD j = true → o.y.getLsbD i = true → o.y.getLsbD j = true

/-- 42_spad.md R117: the block enables the first `count` capable pads at or after the first eligible index, in index order, and
follows no other policy: the map it gives is the one and only subset of the source from `first` on that has
`min(count, capable eligible)` bits and is closed under "a capable eligible bit below a kept bit is kept". -/
def Obligations.SpadmapPolicyIsGreedy : Prop :=
  ∀ (src : BitVec 48) (count : BitVec 8) (ap : Bool) (y : BitVec 48),
    let first := if ap then 12 else 0
    (eval (.spadmap src count ap)).y = y ↔
      (∀ i < 48, y.getLsbD i = true → src.getLsbD i = true ∧ first ≤ i) ∧
      popcount y = min count.toNat (popcountRange src first 48) ∧
      ∀ i j, first ≤ j → j < i → src.getLsbD j = true → y.getLsbD i = true → y.getLsbD j = true

/-- 42_spad.md R118 and R119: with no more than `count` capable eligible bits (always so from a count of 48, or 36 with aperture)
every one is kept, `z` is their number, and no flag is raised. -/
def Obligations.SpadmapFewPadsKeptAll : Prop :=
  ∀ (src : BitVec 48) (count : BitVec 8) (ap : Bool),
    let first := if ap then 12 else 0
    popcountRange src first 48 ≤ 48 - first ∧
    (popcountRange src first 48 ≤ count.toNat →
      (∀ i < 48, (eval (.spadmap src count ap)).y.getLsbD i = (src.getLsbD i && decide (first ≤ i))) ∧
      (eval (.spadmap src count ap)).z.toNat = popcountRange src first 48 ∧
      (eval (.spadmap src count ap)).f = 0) ∧
    ((eval (.spadmap src count ap)).z.toNat < count.toNat ↔ popcountRange src first 48 < count.toNat)

/-- 92_eei_decisions.md D25 (derived from 42_spad.md R115): `SPADMAP map, 255, 0` gives the map back with its popcount on `z`. -/
def Obligations.SpadmapGivesPlainPopcount : Prop :=
  ∀ map : BitVec 48, eval (.spadmap map 255 false) = { y := map, z := BitVec.ofNat 8 (popcount map), f := 0 }

/-! ## Wire bytes -/

/-- 20_memory.md R43, R44 and R45: byte 0 of a timeout register is the exponent and byte 1 the mantissa, so that the pair is the
big-endian 16-bit value, and the pair MCLK2TMO gives, sent MSByte first and read back, is the same pair; bit `i mod 8` of the
`i / 8`-th byte in read order of a map is port bit `i`, and a map sent and read back is the same map. -/
def Obligations.WireBytesMapToPorts : Prop :=
  (∀ b0 b1 : Byte,
    pairMsb (pairOfWire b0 b1) = b0 ∧ pairLsb (pairOfWire b0 b1) = b1 ∧ (pairOfWire b0 b1).toNat = bigEndian [b0, b1]) ∧
  (∀ m : BitVec 32, ∃ b0 b1 : Byte, pairToWire (eval (.mclk2tmo m)).y = [b0, b1] ∧ pairOfWire b0 b1 = compressed m) ∧
  (∀ b0 b1 b2 b3 b4 b5 : Byte,
    mapToWire (mapOfWire b0 b1 b2 b3 b4 b5) = [b0, b1, b2, b3, b4, b5] ∧
    ∀ i < 48, (mapOfWire b0 b1 b2 b3 b4 b5).getLsbD i =
      (match i / 8 with | 0 => b0 | 1 => b1 | 2 => b2 | 3 => b3 | 4 => b4 | _ => b5).getLsbD (i % 8)) ∧
  (∀ m : BitVec 48, ∃ b0 b1 b2 b3 b4 b5 : Byte, mapToWire m = [b0, b1, b2, b3, b4, b5] ∧ mapOfWire b0 b1 b2 b3 b4 b5 = m) ∧
  ∀ b0 b1 b2 b3 : Byte, bigEndian [b0, b1, b2, b3] = (b0 ++ b1 ++ b2 ++ b3 : BitVec 32).toNat

/-! ## Reserved operations, flags and their use -/

/-- 30_encoding.md R54 and 60_exceptions.md R131: for `op` in `{0x0, 0x8 .. 0xF}` the command completes with `y = 0`, `z = 0`,
`f = 0b0001`, whatever its operands, has no other effect, and counts as `Fault(ILL)`, never as a computed zero (the form of that
fault, a host's use, is log entry 1). -/
def Obligations.ReservedOpsDriveIllegal : Prop :=
  (∀ (c : Command) (s : State), c.op = 0x0 ∨ 0x8 ≤ c.op.toNat →
    exec (decode c) s = .next (s.driving 0 0 0b0001) ∧
    useCommand (decode c) = .error .ill) ∧
  (∀ s : State, exec .reserved0 s = .next (s.driving 0 0 0b0001)) ∧
  ∀ (low : BitVec 3) (s : State), exec (.reserved8F low) s = .next (s.driving 0 0 0b0001)

/-- 60_exceptions.md R136 (derived by the spec from R131 to R134): at most one flag is 1, and each comes only from its own
operations. -/
def Obligations.AtMostOneFlagPerCommand : Prop :=
  ∀ i : Instr,
    (eval i).f ∈ [0x0, 0x1, 0x2, 0x4, 0x8] ∧
    (flagSet (eval i).f .ill = true ↔ i.mnemonic ∈ ["RESERVED0", "RESERVED8-F"]) ∧
    (flagSet (eval i).f .ovf = true → i.mnemonic ∈ ["TMO2MCLK", "MCLK2US"]) ∧
    (flagSet (eval i).f .sat = true → i.mnemonic = "MCLK2TMO") ∧
    (flagSet (eval i).f .dz = true → i.mnemonic = "US2MCLK")

/-- 30_encoding.md R53, the table's unlisted bits, row by row: every bit of `y` outside the listed field is 0, `z` is 0 for every
operation but SPADMAP, and every flag that the row does not list is 0; a reserved row lists `y = 0`, `z = 0` and `ILL`. -/
def Obligations.UnlistedOutputBitsAreZero : Prop :=
  (∀ raw, let o := eval (.tmo2mclk raw); o.y.toNat < 2 ^ 32 ∧ o.z = 0 ∧ o.f &&& 0b1101 = 0) ∧
  (∀ m, let o := eval (.mclk2tmo m); o.y.toNat < 2 ^ 16 ∧ o.z = 0 ∧ o.f &&& 0b1011 = 0) ∧
  (∀ m p, let o := eval (.mclk2us m p); o.y.toNat < 2 ^ 32 ∧ o.z = 0 ∧ o.f &&& 0b1101 = 0) ∧
  (∀ u p, let o := eval (.us2mclk u p); o.y.toNat < 2 ^ 32 ∧ o.z = 0 ∧ o.f &&& 0b0111 = 0) ∧
  (∀ reg, let o := eval (.vcsel2pclk reg); o.y.toNat < 2 ^ 10 ∧ o.z = 0 ∧ o.f = 0) ∧
  (∀ info, let o := eval (.spadinfo info); o.y.toNat < 2 ^ 9 ∧ o.y.getLsbD 7 = false ∧ o.z = 0 ∧ o.f = 0) ∧
  (∀ m c ap, (eval (.spadmap m c ap)).f = 0) ∧
  (let o := eval .reserved0; o.y = 0 ∧ o.z = 0 ∧ o.f &&& 0b1110 = 0) ∧
  ∀ low, let o := eval (.reserved8F low); o.y = 0 ∧ o.z = 0 ∧ o.f &&& 0b1110 = 0

/-- 60_exceptions.md R131, R132, R134 with 10_state.md R27 and log entry 1 (the model's reading of "Model outcome", DESIGN CHOICE):
a host that uses the outcome faults exactly where `Last` holds no value or the outcome is flagged ILL, OVF or DZ; it goes on,
with the state otherwise unchanged, on every other outcome, SAT among them (R133). -/
def Obligations.UseFaultsOnFlaggedOutcome : Prop :=
  ∀ (s : State) (rest : List HostAction), s.host = .use :: rest →
    (s.last = none → step s = .fault .noValue) ∧
    ∀ i : Instr, s.last = some (eval i) →
      (flagSet (eval i).f .ill = true → step s = .fault .ill) ∧
      (flagSet (eval i).f .ovf = true → step s = .fault .ovf) ∧
      (flagSet (eval i).f .dz = true → step s = .fault .dz) ∧
      ((eval i).f = 0x0 ∨ (eval i).f = 0x4 → step s = .next { s with host := rest })

/-- 60_exceptions.md R132, R133, R134 over the commands: which commands a host can use (log entry 1). -/
def Obligations.CommandsUsableExactly : Prop :=
  ∀ i : Instr, (∃ o, useCommand i = .ok o) ↔
    match i with
    | .tmo2mclk raw => raw.toNat % 256 * 2 ^ (raw.toNat / 256) + 1 < 2 ^ 32
    | .mclk2us m p => (m.toNat * macroPeriod p.toNat + macroPeriod p.toNat / 2) / 1000 < 2 ^ 32
    | .us2mclk _ p => p ≠ 0
    | .reserved0 => False
    | .reserved8F _ => False
    | .mclk2tmo _ => True
    | .vcsel2pclk _ => True
    | .spadinfo _ => True
    | .spadmap _ _ _ => True

/-! ## Encoding -/

/-- The opcode table (30_encoding.md R51, R54, R55): every command falls under exactly one row, and the decoder gives that row's
instruction. -/
def Obligations.DecoderFollowsOpcodeTable : Prop :=
  (∀ c : Command, ∀ r ∈ opcodeRows, rowHolds r c.op = true ↔ (decode c).mnemonic = r.mnemonic) ∧
  ∀ op : OpBits, (opcodeRows.countP fun r => rowHolds r op) = 1

/-- Words written out from 30_encoding.md R50 to R52 (the vectors V7, V31, V44, V65, V76, V85, V93, V109 and V117 of
95_test_vectors.md) decode to the commands they stand for. -/
def Obligations.SampleWordsDecode : Prop :=
  decodeWord 0x00000000000002031 = .tmo2mclk 0x0203 ∧
  decodeWord 0x00000000000003E82 = .mclk2tmo 1000 ∧
  decodeWord 0x000E0000000000643 = .mclk2us 100 14 ∧
  decodeWord 0x000E000000005DC04 = .us2mclk 24000 14 ∧
  decodeWord 0x00000000000000065 = .vcsel2pclk 6 ∧
  decodeWord 0x00000000000000856 = .spadinfo 0x85 ∧
  decodeWord 0x0105FFFFFFFFFFFF7 = .spadmap 0xFFFFFFFFFFFF 5 true ∧
  decodeWord 0xFFFF123456789ABC0 = .reserved0 ∧
  decodeWord 0xFFFF123456789ABCF = .reserved8F 7

/-- Decode and encode agree: the word and the bytes of every instruction decode to it, with every operand at every value
(30_encoding.md R50 to R52; the byte layout is log entry 7). -/
def Obligations.DecodeOfEncode : Prop :=
  ∀ i : Instr, decodeWord (encode i) = i ∧ (∀ rest, decodeBytes (encodeBytes i ++ rest) = .ok (i, rest)) ∧
    decodeTableWord 68 (encode i).toNat = some i

/-- The other direction: encoding what a command decodes to gives the command with the operand bits its operation does not read
cleared, and nothing else changed (30_encoding.md R52; cleared bits are log entry 8). -/
def Obligations.EncodeOfDecode : Prop :=
  (∀ c : Command, encodeCommand (decode c) =
    { op := c.op, a := c.a &&& readsA (decode c), b := c.b &&& readsB (decode c) }) ∧
  (∀ c : Command, commandOfWord (commandToWord c) = c) ∧ ∀ w : CommandWord, commandToWord (commandOfWord w) = w

/-- 10_state.md R28: an operation ignores every input bit its rule does not read; such bits may hold any value and do not change
the outputs. That they may also be undriven is the model's own reading of R28 with R150, not R28's words (log entry 17, DEDUCED). -/
def Obligations.UnreadInputBitsIgnored : Prop :=
  ∀ (p q : Inputs) (i : Instr), settledInstr p = some i → p.op = q.op → q.opDriven = BitVec.allOnes 4 →
    p.a &&& readsA i = q.a &&& readsA i → p.b &&& readsB i = q.b &&& readsB i →
    q.aDriven &&& readsA i = readsA i → q.bDriven &&& readsB i = readsB i →
    settledInstr q = some i ∧ settledOutputs q = settledOutputs p

/-- 30_encoding.md R56: a line assembles exactly when its operands fit their fields, and for every mnemonic and every form of its
fields (a literal, a host variable, an omitted field, a map as one operand or as six bytes) its command decodes to the operation
of the mnemonic with the fields' values. The last clause, SPADMAP with one operand for the whole of `b`, which the first clause
ranges over as well, is no form of R56: it is read from program P3 (log entry 14). -/
def Obligations.AssemblerLinesDecode : Prop :=
  (∀ env l, (∃ c, assemble env l = some c) ↔ l.wellFormed env = true) ∧
  (∀ env x n, AsmFieldIs env x n → n < 2 ^ 16 →
    (assemble env (.tmo2mclk x)).map decode = some (.tmo2mclk (BitVec.ofNat 16 n))) ∧
  (∀ env x n, AsmFieldIs env x n → n < 2 ^ 32 →
    (assemble env (.mclk2tmo x)).map decode = some (.mclk2tmo (BitVec.ofNat 32 n))) ∧
  (∀ env x n y k, AsmFieldIs env x n → n < 2 ^ 32 → AsmFieldIs env y k → k < 2 ^ 16 →
    (assemble env (.mclk2us x y)).map decode = some (.mclk2us (BitVec.ofNat 32 n) (BitVec.ofNat 16 k))) ∧
  (∀ env x n y k, AsmFieldIs env x n → n < 2 ^ 32 → AsmFieldIs env y k → k < 2 ^ 16 →
    (assemble env (.us2mclk x y)).map decode = some (.us2mclk (BitVec.ofNat 32 n) (BitVec.ofNat 16 k))) ∧
  (∀ env x n, AsmFieldIs env x n → n < 2 ^ 8 →
    (assemble env (.vcsel2pclk x)).map decode = some (.vcsel2pclk (BitVec.ofNat 8 n))) ∧
  (∀ env x n, AsmFieldIs env x n → n < 2 ^ 8 →
    (assemble env (.spadinfo x)).map decode = some (.spadinfo (BitVec.ofNat 8 n))) ∧
  (∀ env m a x n y t, AsmMapIs env m a → a < 2 ^ 48 → AsmFieldIs env x n → n < 2 ^ 8 → AsmFieldIs env y t → t < 2 →
    (assemble env (.spadmap m x y)).map decode = some (.spadmap (BitVec.ofNat 48 a) (BitVec.ofNat 8 n) (decide (t = 1)))) ∧
  ∀ env m a v n, AsmMapIs env m a → a < 2 ^ 48 → AsmOperandIs env v n → n < 2 ^ 16 →
    (assemble env (.spadmapPacked m v)).map decode =
      some (.spadmap (BitVec.ofNat 48 a) (BitVec.ofNat 8 n) (decide (n / 256 % 2 = 1)))

/-! ## The step -/

/-- A step runs the decoded instruction (00_scope.md R13, 10_state.md R32): where the host presents inputs whose read bits are
driven, the step is `exec` of what they decode to, with the inputs on the ports and the action taken off the host's list; where
the list is empty, it is `exec` of what stands on the ports; and after `State.withFetchWord` it is `exec` of that word's
instruction. The list (log entry 4, DESIGN CHOICE), the hold (log entry 5, DESIGN CHOICE), the placing of a program's command in
front of the list (log entry 6, DESIGN CHOICE) and undriven bits that are not read (log entry 17, DEDUCED) are the model's. -/
def Obligations.StepRunsDecodedInstruction : Prop :=
  (∀ (s : State) (c : Command) (rest : List HostAction), s.host = .present (Inputs.ofCommand c) :: rest →
    step s = exec (decode c) { s with inputs := Inputs.ofCommand c, host := rest }) ∧
  (∀ (s : State) (p : Inputs) (rest : List HostAction) (i : Instr), s.host = .present p :: rest → settledInstr p = some i →
    i = decode p.command ∧ step s = exec i { s with inputs := p, host := rest }) ∧
  (∀ (s : State) (i : Instr), s.host = [] → settledInstr s.inputs = some i → i = decode s.inputs.command ∧ step s = exec i s) ∧
  ∀ (s : State) (w : CommandWord), step (s.withFetchWord 68 w.toNat) =
    exec (decodeWord w) { s with inputs := Inputs.ofCommand (commandOfWord w) }

/-- 70_reset_and_hazards.md R150: while an operand bit the selected operation reads is undriven or changing, the outputs are
unspecified and a model gives them no value. The rest is the model's reading: that the step goes on and empties `Last`, and that
every bit of `op` counts as read, are log entry 3 (DEDUCED), and that partly driven inputs stand on the ports is log entry 17
(DEDUCED). -/
def Obligations.UndrivenInputsGiveNoValue : Prop :=
  ∀ (s : State) (p : Inputs) (rest : List HostAction), s.host = .present p :: rest →
    ((∃ k < 4, p.opDriven.getLsbD k = false) ∨
     (∃ k < 48, (readsA (decode p.command)).getLsbD k = true ∧ p.aDriven.getLsbD k = false) ∨
     (∃ k < 16, (readsB (decode p.command)).getLsbD k = true ∧ p.bDriven.getLsbD k = false)) →
    step s = .next { inputs := p, last := none, host := rest }

/-- The frame of a step that goes on. 10_state.md R20 and R27 and 20_memory.md R47: an instruction changes `Last` alone. The rest
is the model's: the host's list, which only loses its head, is log entry 4 (DESIGN CHOICE); that using an outcome is a step, which
changes no port and no output, is log entry 1 (DESIGN CHOICE); that the ports take whatever inputs are presented, driven or not,
is log entry 17 (DEDUCED); that the ports hold when the list is empty is log entry 5 (DESIGN CHOICE). -/
def Obligations.StepFrame : Prop :=
  (∀ (i : Instr) (s t : State), exec i s = .next t → t.inputs = s.inputs ∧ t.host = s.host) ∧
  ∀ s t : State, step s = .next t →
    t.host = s.host.tail ∧
    (s.host.head? = some .use → t.inputs = s.inputs ∧ t.last = s.last) ∧
    (∀ p, s.host.head? = some (.present p) → t.inputs = p) ∧
    (s.host = [] → t.inputs = s.inputs)

/-- 20_memory.md R47: evaluation is idempotent; presenting the same command twice leaves what presenting it once leaves, apart
from the host's list. The list (log entry 4, DESIGN CHOICE), that a step with an empty list holds the inputs and evaluates them
again, which repeated changes nothing more (log entry 5, DESIGN CHOICE), and that inputs which are not settled leave no value and
the step goes on (log entry 3, DEDUCED) are the model's. -/
def Obligations.EvaluationIsIdempotent : Prop :=
  (∀ s t : State, s.host = [] → step s = .next t → step t = .next t) ∧
  ∀ (s : State) (p : Inputs), s.host = [.present p, .present p] →
    ∃ t, step { s with host := [.present p] } = .next t ∧ run 2 s = .next t

/-- 10_state.md R20, 20_memory.md R48 (so commands may be issued in any order): whatever state the block starts in and whatever
commands came before, the outputs after a command are the function of that command alone. The list of commands is the model's
(log entry 4, DESIGN CHOICE), and so is that inputs which are not settled give no value and the run goes on (log entry 3, DEDUCED). -/
def Obligations.OutputsForgetEarlierCommands : Prop :=
  ∀ (s : State) (before : List Inputs) (p : Inputs) (rest : List HostAction),
    s.host = before.map .present ++ .present p :: rest →
    run (before.length + 1) s = .next { inputs := p, last := settledOutputs p, host := rest }

/-- 00_scope.md R14 and 60_exceptions.md R130: every command gives defined outputs, no flag stops the block, no stuck state and no
hang. The form is the model's: that a flagged outcome goes on in `exec`, though R131, R132 and R134 call it a fault outcome, and
that the only steps that stop are a host's use of a missing value or of a flagged outcome, are log entry 1 (DESIGN CHOICE); that a
step with unsettled inputs goes on is log entry 3 (DEDUCED). -/
def Obligations.OnlyUseStops : Prop :=
  (∀ (i : Instr) (s : State), ∃ t, exec i s = .next t) ∧
  ∀ s : State, (∃ t, step s = .next t) ∨ ∃ rest e, s.host = .use :: rest ∧ step s = .fault e ∧ useLast s = .error e

/-- A run of presented commands alone completes from every state, flagged outcomes among them: no flag stops the block
(60_exceptions.md R130). That such a run counts as safe as long as no outcome is used, though R131, R132 and R134 call flagged
outcomes faults, is log entry 1 (DESIGN CHOICE); that partly driven inputs go on is log entry 3 (DEDUCED), and the steps after the
list is used up are log entry 5 (DESIGN CHOICE). -/
def Obligations.PresentingNeverStops : Prop :=
  ∀ (s : State) (ps : List Inputs) (k : Nat), s.host = ps.map .present → SafeRun k s

/-! ## Invariants -/

/-- The outputs stay legal: at most one flag, each with what it comes with, and `z` the popcount of the map beside it
(60_exceptions.md R131 to R136, 42_spad.md R114, R116). -/
def Obligations.StepKeepsLegalOutputs : Prop := ∀ s t : State, LegalState s → step s = .next t → LegalState t

/-- The outputs follow the inputs (10_state.md R32, 70_reset_and_hazards.md R150). That unsettled inputs leave no value and the
step goes on is log entry 3 (DEDUCED), and that a step with an empty list evaluates the held inputs is log entry 5 (DESIGN
CHOICE). -/
def Obligations.StepKeepsOutputsFollowingInputs : Prop :=
  ∀ s t : State, OutputsFollowInputs s → step s = .next t → OutputsFollowInputs t

/-- 10_state.md R32 and 20_memory.md R47: whatever the state before, one evaluation leaves outputs that follow the inputs and are
legal (the invariants of StepKeepsOutputsFollowingInputs and StepKeepsLegalOutputs). That an empty list is an evaluation of the
held inputs is log entry 5 (DESIGN CHOICE), and that unsettled inputs leave no value is log entry 3 (DEDUCED). -/
def Obligations.EvaluationRestoresOutputs : Prop :=
  ∀ s t : State, s.host.head? ≠ some .use → step s = .next t → OutputsFollowInputs t ∧ LegalState t

/-- Power-up (70_reset_and_hazards.md R150, 10_state.md R27): no output has a value, reading `Last` faults rather than gives zero,
and both invariants hold. The rest is the model's choice: that the inputs are undriven is log entry 2, that the host's list is
empty is log entry 4, and that a use is a step is log entry 1 (DESIGN CHOICE all); that a step of the reset state gives the reset
state again, with no step before a program's first instruction, rests on log entries 5 and 6 (DESIGN CHOICE) and, since nothing is
driven, on log entry 3 (DEDUCED). -/
def Obligations.ResetHoldsNoValue : Prop :=
  State.reset.last = none ∧ useLast State.reset = .error .noValue ∧
  step { State.reset with host := [.use] } = .fault .noValue ∧
  step State.reset = .next State.reset ∧
  LegalState State.reset ∧ OutputsFollowInputs State.reset

/-! ## The host's sequences -/

/-- 70_reset_and_hazards.md R155, writing: US2MCLK with the final-range period, the pre-range count added if pre-range is enabled,
MCLK2TMO; for a period that is not 0 and a sum that fits 32 bits it gives that pair, and it faults otherwise (the fault on a
sum beyond 32 bits is log entry 13). -/
def Obligations.FinalRangeWriteSequence : Prop :=
  ∀ (us : BitVec 32) (p : BitVec 16) (pre : BitVec 32) (en : Bool),
    let sum := (us.toNat * 1000 + macroPeriod p.toNat / 2) / macroPeriod p.toNat + if en then pre.toNat else 0
    (p ≠ 0 → sum < 2 ^ 32 → writeFinalRange us p pre en = .ok (eval (.mclk2tmo (BitVec.ofNat 32 sum)))) ∧
    (p ≠ 0 → 2 ^ 32 ≤ sum → writeFinalRange us p pre en = .error .hostRange) ∧
    (p = 0 → writeFinalRange us p pre en = .error .dz)

/-- 70_reset_and_hazards.md R155, reading, for every register pair: TMO2MCLK, the pre-range count subtracted if pre-range is
enabled, MCLK2US with the final-range period. It faults where a TMO2MCLK it uses or the MCLK2US overflows (R132; the form of that
fault is log entry 1) and where the difference is negative (log entry 13), and gives the microseconds of the difference
otherwise. With pre-range not enabled, the pre-range pair does not matter. -/
def Obligations.FinalRangeReadSequence : Prop :=
  ∀ (fin pre p : BitVec 16),
    let count := fun r : BitVec 16 => r.toNat % 256 * 2 ^ (r.toNat / 256) + 1
    let q := macroPeriod p.toNat
    let converted := fun n : Nat =>
      if 2 ^ 32 ≤ (n * q + q / 2) / 1000 then Except.error Fault.ovf
      else .ok { y := BitVec.ofNat 48 ((n * q + q / 2) / 1000), z := 0, f := 0 }
    (∀ en, 2 ^ 32 ≤ count fin → readFinalRange fin pre p en = .error .ovf) ∧
    (2 ^ 32 ≤ count pre → readFinalRange fin pre p true = .error .ovf) ∧
    (count fin < 2 ^ 32 → readFinalRange fin pre p false = converted (count fin)) ∧
    (count fin < 2 ^ 32 → count pre ≤ count fin → readFinalRange fin pre p true = converted (count fin - count pre)) ∧
    (count pre < 2 ^ 32 → count fin < count pre → readFinalRange fin pre p true = .error .hostRange)

/-- Writing a final-range time and reading it back (R155 with R79, R81, R91 and R94), with the same period and pre-range pair: for
a period that is not 0, a pre-range pair that does not overflow where it is used, and a sum of counts in 1 .. 0xFFFF, the write
gives an unflagged pair, and reading that pair gives a count that is never above the one written and within the compression loss
`2^ms - 1` of it; the difference is never negative. The time read back is the conversion of that count (an overflow faults, log
entry 1): at most one macro period above the time written, and below it by at most the lost clocks and one microsecond's
truncation. -/
def Obligations.FinalRangeWriteThenRead : Prop :=
  ∀ (us : BitVec 32) (p pre : BitVec 16) (en : Bool), p ≠ 0 →
    (en = true → flagSet (eval (.tmo2mclk pre)).f .ovf = false) →
    let q := macroPeriod p.toNat
    let written := (us.toNat * 1000 + q / 2) / q
    let sum := written + if en then (expanded pre).toNat else 0
    1 ≤ sum → sum ≤ 0xFFFF →
    ∃ (o : Outputs) (count : BitVec 32),
      let loss := 2 ^ (o.y.toNat / 256) - 1
      writeFinalRange us p (expanded pre) en = .ok o ∧ o.f = 0 ∧ o.y.toNat < 2 ^ 16 ∧
      readFinalCount (o.y.setWidth 16) pre en = .ok count ∧ count.toNat ≤ written ∧ written ≤ count.toNat + loss ∧
      readFinalRange (o.y.setWidth 16) pre p en = useCommand (.mclk2us count p) ∧
      ∀ v, readFinalRange (o.y.setWidth 16) pre p en = .ok v →
        1000 * v.y.toNat ≤ 1000 * us.toNat + q ∧ 1000 * us.toNat ≤ 1000 * v.y.toNat + 999 + loss * q
end

