-- ==== Sys2Proof/Laws/State.lean ====
section
/-! SUPPORT. The fields of State after each of its updates, and of the small records on the ports. -/

namespace Sys2Proof.Machine

@[simp] theorem State.setLast_inputs (s : State) (o : Option Outputs) : ({ s with last := o } : State).inputs = s.inputs := rfl
@[simp] theorem State.setLast_last (s : State) (o : Option Outputs) : ({ s with last := o } : State).last = o := rfl
@[simp] theorem State.setLast_host (s : State) (o : Option Outputs) : ({ s with last := o } : State).host = s.host := rfl

@[simp] theorem State.setHost_inputs (s : State) (h : List HostAction) : ({ s with host := h } : State).inputs = s.inputs := rfl
@[simp] theorem State.setHost_last (s : State) (h : List HostAction) : ({ s with host := h } : State).last = s.last := rfl
@[simp] theorem State.setHost_host (s : State) (h : List HostAction) : ({ s with host := h } : State).host = h := rfl

@[simp] theorem State.present_inputs (s : State) (p : Inputs) (h : List HostAction) :
    ({ s with inputs := p, host := h } : State).inputs = p := rfl
@[simp] theorem State.present_last (s : State) (p : Inputs) (h : List HostAction) :
    ({ s with inputs := p, host := h } : State).last = s.last := rfl
@[simp] theorem State.present_host (s : State) (p : Inputs) (h : List HostAction) :
    ({ s with inputs := p, host := h } : State).host = h := rfl

@[simp] theorem State.withFetchWord_inputs (s : State) (n w : Nat) : (s.withFetchWord n w).inputs = s.inputs := rfl
@[simp] theorem State.withFetchWord_last (s : State) (n w : Nat) : (s.withFetchWord n w).last = s.last := rfl
@[simp] theorem State.withFetchWord_host (s : State) (n w : Nat) :
    (s.withFetchWord n w).host =
      .present (Inputs.ofCommand (commandOfWord (BitVec.ofNat 68 (w % 2 ^ n)))) :: s.host := rfl

@[simp] theorem State.reset_inputs : State.reset.inputs = Inputs.undriven := rfl
@[simp] theorem State.reset_last : State.reset.last = none := rfl
@[simp] theorem State.reset_host : State.reset.host = [] := rfl

@[simp] theorem Inputs.ofCommand_command (c : Command) : (Inputs.ofCommand c).command = c := rfl
@[simp] theorem Inputs.ofCommand_opDriven (c : Command) : (Inputs.ofCommand c).opDriven = BitVec.allOnes 4 := rfl
@[simp] theorem Inputs.ofCommand_aDriven (c : Command) : (Inputs.ofCommand c).aDriven = BitVec.allOnes 48 := rfl
@[simp] theorem Inputs.ofCommand_bDriven (c : Command) : (Inputs.ofCommand c).bDriven = BitVec.allOnes 16 := rfl

end Sys2Proof.Machine
end

