-- ==== Sys2Proof/Laws/Ops.lean ====
section
/-! SUPPORT. What each shared operation can do, said once. -/

namespace Sys2Proof.Machine

/-! ## Driving and using the outputs -/

@[simp] theorem complete_eq (o : Outputs) (s : State) : complete o s = .next { s with last := some o } := rfl

@[simp] theorem unsettled_eq (s : State) : unsettled s = .next { s with last := none } := rfl

theorem useLast_of_none {s : State} (h : s.last = none) : useLast s = .error .noValue := by
  simp [useLast, h]

theorem useLast_of_some {s : State} {o : Outputs} (h : s.last = some o) : useLast s = asValue o := by
  simp [useLast, h]

/-- A use that goes on leaves the state as it was. -/
theorem useStep_next {s t : State} (h : useStep s = .next t) : t = s := by
  unfold useStep at h
  split at h
  · exact (Host.Outcome.next.inj h).symm
  · cases h

/-- A use goes on exactly where the outcome is a value. -/
theorem useStep_eq_next_iff (s : State) : useStep s = .next s ↔ ∃ o, useLast s = .ok o := by
  unfold useStep
  split <;> simp_all

theorem useStep_fault {s : State} {e : Fault} (h : useLast s = .error e) : useStep s = .fault e := by
  simp [useStep, h]

/-! ## Flags -/

@[simp] theorem raiseIf_true (c : Cause) : raiseIf true c = raise c := rfl
@[simp] theorem raiseIf_false (c : Cause) : raiseIf false c = 0#4 := rfl

@[simp] theorem raise_ill : raise .ill = 1#4 := rfl
@[simp] theorem raise_ovf : raise .ovf = 2#4 := rfl
@[simp] theorem raise_sat : raise .sat = 4#4 := rfl
@[simp] theorem raise_dz : raise .dz = 8#4 := rfl

@[simp] theorem flagFault_zero : flagFault 0#4 = none := rfl
@[simp] theorem flagFault_ill : flagFault 1#4 = some .ill := rfl
@[simp] theorem flagFault_ovf : flagFault 2#4 = some .ovf := rfl
@[simp] theorem flagFault_sat : flagFault 4#4 = none := rfl
@[simp] theorem flagFault_dz : flagFault 8#4 = some .dz := rfl

theorem overflowFlag_eq (n : Nat) : overflowFlag n = if 2 ^ 32 ≤ n then 2#4 else 0#4 := by
  unfold overflowFlag raiseIf
  split <;> simp_all [Config.resultLimit]

/-! ## Results -/

theorem resultY_toNat (n : Nat) : (resultY n).toNat = n % 2 ^ 32 := by
  have : n % 2 ^ 32 < 2 ^ 32 := Nat.mod_lt _ (by decide)
  simp only [resultY, Config.resultLimit, BitVec.toNat_ofNat]
  omega

/-! ## Counting bits -/

@[simp] theorem popcountRange_zero {w : Nat} (v : BitVec w) (lo : Nat) : popcountRange v lo 0 = 0 := rfl

theorem popcountRange_succ {w : Nat} (v : BitVec w) (lo hi : Nat) :
    popcountRange v lo (hi + 1) = popcountRange v lo hi + if lo ≤ hi ∧ v.getLsbD hi = true then 1 else 0 := rfl

theorem popcountRange_empty {w : Nat} (v : BitVec w) {lo hi : Nat} (h : hi ≤ lo) : popcountRange v lo hi = 0 := by
  induction hi with
  | zero => rfl
  | succ n ih => rw [popcountRange_succ, ih (by omega), if_neg (by omega)]

theorem popcountRange_le {w : Nat} (v : BitVec w) (lo hi : Nat) : popcountRange v lo hi ≤ hi - lo := by
  induction hi with
  | zero => simp
  | succ n ih => rw [popcountRange_succ]; split <;> omega

theorem popcountRange_mono {w : Nat} (v : BitVec w) (lo : Nat) {i j : Nat} (h : i ≤ j) :
    popcountRange v lo i ≤ popcountRange v lo j := by
  induction h with
  | refl => exact Nat.le_refl _
  | step _ ih => rw [popcountRange_succ]; omega

/-- The count depends only on the bits of the range. -/
theorem popcountRange_congr {w w' : Nat} {v : BitVec w} {u : BitVec w'} {lo lo' hi : Nat}
    (h : ∀ i < hi, (lo ≤ i ∧ v.getLsbD i = true) ↔ (lo' ≤ i ∧ u.getLsbD i = true)) :
    popcountRange v lo hi = popcountRange u lo' hi := by
  induction hi with
  | zero => rfl
  | succ n ih =>
    rw [popcountRange_succ, popcountRange_succ, ih fun i hi => h i (by omega)]
    simp only [h n (by omega)]

end Sys2Proof.Machine
end

