-- ==== Sys2Proof/Laws/Families.lean ====
section
/-! SUPPORT. The spec lemmas of the families' own operations: the compressor's loop, the macro period and the SPAD visits. -/

namespace Sys2Proof.Machine

/-! ## The compressor's loop (40_timeout.md R75) -/

/-- The loop divides by two once a turn and counts its turns; it stops at the first value that fits 8 bits, provided the fuel
is enough for the value. -/
theorem compressLoop_spec (fuel ls ms : Nat) (h : ls < 256 * 2 ^ fuel) :
    ∃ k, compressLoop fuel ls ms = (ls / 2 ^ k, ms + k) ∧ ls / 2 ^ k ≤ 255 ∧ ∀ j < k, 255 < ls / 2 ^ j := by
  induction fuel generalizing ls ms with
  | zero => exact ⟨0, by simp [compressLoop], by simpa using Nat.le_of_lt_succ (by simpa using h), by simp⟩
  | succ n ih =>
    by_cases hls : 255 < ls
    · have hhalf : ls / 2 < 256 * 2 ^ n := by rw [pow_succ] at h; omega
      obtain ⟨k, hk, hle, hgt⟩ := ih (ls / 2) (ms + 1) hhalf
      refine ⟨k + 1, ?_, ?_, ?_⟩
      · rw [compressLoop, if_pos hls, Nat.shiftRight_one, hk, Nat.div_div_eq_div_mul, pow_succ']
        simp only [Prod.mk.injEq, true_and]
        omega
      · rwa [pow_succ', ← Nat.div_div_eq_div_mul]
      · intro j hj
        cases j with
        | zero => simpa using hls
        | succ j => rw [pow_succ', ← Nat.div_div_eq_div_mul]; exact hgt j (by omega)
    · exact ⟨0, by simp [compressLoop, hls], by simp; omega, by simp⟩

/-- The sixteen turns of `compressCount` are enough for every count. -/
theorem compressLoop_clamped (m : Nat) :
    ∃ k, compressLoop 16 (min m 0xFFFF - 1) 0 = ((min m 0xFFFF - 1) / 2 ^ k, k) ∧
      (min m 0xFFFF - 1) / 2 ^ k ≤ 255 ∧ ∀ j < k, 255 < (min m 0xFFFF - 1) / 2 ^ j := by
  obtain ⟨k, hk, hle, hgt⟩ := compressLoop_spec 16 (min m 0xFFFF - 1) 0 (by omega)
  exact ⟨k, by simpa using hk, hle, hgt⟩

/-! ## The macro period (41_clock_conversion.md R90) -/

theorem macroPeriod_eq (p : Nat) : macroPeriod p = (3813120 * p + 500) / 1000 := by
  simp only [macroPeriod, Config.mpK1, Config.mpK2, Config.mpRound, Config.mpDiv]
  congr 2
  ring

theorem macroPeriod_lower {p : Nat} (h : p ≠ 0) : 3813 ≤ macroPeriod p := by
  rw [macroPeriod_eq]; omega

/-! ## The SPAD visits (42_spad.md R113) -/

@[simp] theorem spadLoop_zero (src : BitVec 48) (count first : Nat) :
    spadLoop src count first 0 = { out := src, en := 0 } := rfl

theorem spadLoop_succ (src : BitVec 48) (count first n : Nat) :
    spadLoop src count first (n + 1) = spadVisit src count first (spadLoop src count first n) n := rfl

/-- A visit clears the bit and keeps the count, or keeps the map and counts a capable bit, or changes nothing. -/
theorem spadVisit_cases (src : BitVec 48) (count first : Nat) (r : SpadRun) (i : Nat) :
    ((i < first ∨ r.en = count) ∧ spadVisit src count first r i = { out := clearMapBit r.out i, en := r.en }) ∨
    (¬(i < first ∨ r.en = count) ∧ readMapBit src i = true ∧ spadVisit src count first r i = { out := r.out, en := r.en + 1 }) ∨
    (¬(i < first ∨ r.en = count) ∧ readMapBit src i = false ∧ spadVisit src count first r i = r) := by
  unfold spadVisit
  by_cases hc : i < first ∨ r.en = count
  · exact .inl ⟨hc, if_pos hc⟩
  · cases hb : readMapBit src i
    · exact .inr (.inr ⟨hc, rfl, by rw [if_neg hc]; simp⟩)
    · exact .inr (.inl ⟨hc, rfl, by rw [if_neg hc]; simp⟩)

end Sys2Proof.Machine
end

