-- ==== Sys2Proof/Laws/PerInstr.lean ====
section
/-! SUPPORT. Statements about every instruction as syntax, one lemma per constructor. -/

namespace Sys2Proof.Laws.OpField

/-- The encoder puts the row's op code in `CW[3:0]`: the encoded op is held by the row of spec/opcode_table.json that carries
the instruction's mnemonic. -/
def Statement (i : Instr) : Prop :=
  ∃ r ∈ opcodeRows, r.mnemonic = i.mnemonic ∧ rowHolds r ((encode i).extractLsb' 0 4) = true

/-- `CW[3:0]` is the command's op (30_encoding.md R50). -/
theorem op_of_word (c : Command) : (commandToWord c).extractLsb' 0 4 = c.op := by
  apply BitVec.eq_of_getLsbD_eq
  intro i hi
  simp only [commandToWord, BitVec.getLsbD_extractLsb', BitVec.getLsbD_append, Nat.zero_add, hi, decide_true, Bool.true_and, if_true]

theorem tmo2mclk (raw : BitVec 16) : Statement (.tmo2mclk raw) :=
  ⟨⟨"TMO2MCLK", 0x1, 0xF⟩, by decide, rfl, by rw [encode, op_of_word]; simp only [encodeCommand]; decide⟩
theorem mclk2tmo (m : BitVec 32) : Statement (.mclk2tmo m) :=
  ⟨⟨"MCLK2TMO", 0x2, 0xF⟩, by decide, rfl, by rw [encode, op_of_word]; simp only [encodeCommand]; decide⟩
theorem mclk2us (m : BitVec 32) (p : BitVec 16) : Statement (.mclk2us m p) :=
  ⟨⟨"MCLK2US", 0x3, 0xF⟩, by decide, rfl, by rw [encode, op_of_word]; simp only [encodeCommand]; decide⟩
theorem us2mclk (u : BitVec 32) (p : BitVec 16) : Statement (.us2mclk u p) :=
  ⟨⟨"US2MCLK", 0x4, 0xF⟩, by decide, rfl, by rw [encode, op_of_word]; simp only [encodeCommand]; decide⟩
theorem vcsel2pclk (r : BitVec 8) : Statement (.vcsel2pclk r) :=
  ⟨⟨"VCSEL2PCLK", 0x5, 0xF⟩, by decide, rfl, by rw [encode, op_of_word]; simp only [encodeCommand]; decide⟩
theorem spadinfo (i : BitVec 8) : Statement (.spadinfo i) :=
  ⟨⟨"SPADINFO", 0x6, 0xF⟩, by decide, rfl, by rw [encode, op_of_word]; simp only [encodeCommand]; decide⟩
theorem spadmap (m : BitVec 48) (c : BitVec 8) (ap : Bool) : Statement (.spadmap m c ap) :=
  ⟨⟨"SPADMAP", 0x7, 0xF⟩, by decide, rfl, by rw [encode, op_of_word]; simp only [encodeCommand]; decide⟩
theorem reserved0 : Statement .reserved0 :=
  ⟨⟨"RESERVED0", 0x0, 0xF⟩, by decide, rfl, by rw [encode, op_of_word]; simp only [encodeCommand]; decide⟩
theorem reserved8F (low : BitVec 3) : Statement (.reserved8F low) :=
  ⟨⟨"RESERVED8-F", 0x8, 0x8⟩, by decide, rfl, by rw [encode, op_of_word]; revert low; decide⟩

end Sys2Proof.Laws.OpField
end

