-- ==== Sys2Proof/Laws/Step.lean ====
section
/-! SUPPORT. What `exec`, `settle` and `step` can do, said once. -/

namespace Sys2Proof.Machine

/-- Every command completes, leaves `Eval`'s outputs in `Last` and changes nothing else (10_state.md R27, 20_memory.md R47). -/
theorem exec_eq_next (i : Instr) (s : State) : exec i s = .next { s with last := some (eval i) } := by
  cases i <;> rfl

theorem settledInstr_ofCommand (c : Command) : settledInstr (Inputs.ofCommand c) = some (decode c) := by
  unfold settledInstr
  simp only [Inputs.ofCommand_command, Inputs.ofCommand_opDriven, Inputs.ofCommand_aDriven, Inputs.ofCommand_bDriven]
  exact if_pos ⟨trivial, BitVec.allOnes_and, BitVec.allOnes_and⟩

theorem settledInstr_undriven : settledInstr Inputs.undriven = none := by decide

theorem settle_of_some {s : State} {i : Instr} (h : settledInstr s.inputs = some i) : settle s = exec i s := by
  simp [settle, h]

theorem settle_of_none {s : State} (h : settledInstr s.inputs = none) : settle s = .next { s with last := none } := by
  simp [settle, h]

/-- Settling records what the inputs drive, and changes nothing else. -/
theorem settle_eq (s : State) : settle s = .next { s with last := settledOutputs s.inputs } := by
  unfold settledOutputs
  cases h : settledInstr s.inputs with
  | none => rw [settle_of_none h]; rfl
  | some i => rw [settle_of_some h, exec_eq_next]; rfl

theorem step_hold {s : State} (h : s.host = []) : step s = settle s := by
  simp [step, h]

theorem step_present {s : State} {p : Inputs} {rest : List HostAction} (h : s.host = .present p :: rest) :
    step s = settle { s with inputs := p, host := rest } := by
  simp [step, h]

theorem step_use {s : State} {rest : List HostAction} (h : s.host = .use :: rest) :
    step s = useStep { s with host := rest } := by
  simp [step, h]

/-- The three things a step can be: the host holds its inputs, presents new ones, or uses the outcome. -/
theorem step_cases (s : State) :
    (s.host = [] ∧ step s = settle s) ∨
    (∃ p rest, s.host = .present p :: rest ∧ step s = settle { s with inputs := p, host := rest }) ∨
    (∃ rest, s.host = .use :: rest ∧ step s = useStep { s with host := rest }) := by
  match h : s.host with
  | [] => exact .inl ⟨rfl, step_hold h⟩
  | .present p :: rest => exact .inr (.inl ⟨p, rest, rfl, step_present h⟩)
  | .use :: rest => exact .inr (.inr ⟨rest, rfl, step_use h⟩)

/-! ## Runs -/

@[simp] theorem run_zero (s : State) : run 0 s = .next s := rfl

theorem run_succ_of_next {k : Nat} {s t : State} (h : step s = .next t) : run (k + 1) s = run k t := by
  simp [run, h]

theorem run_succ_of_fault {k : Nat} {s : State} {e : Fault} (h : step s = .fault e) : run (k + 1) s = .fault e := by
  simp [run, h]

/-- One turn of the host's run, for any machine. -/
theorem core_run_succ (M : Host.Core) (k : Nat) (s : M.State) :
    (∀ t, M.step s = .next t → M.run (k + 1) s = M.run k t) ∧
    (∀ e, M.step s = .fault e → M.run (k + 1) s = .fault e) ∧
    (∀ r, M.step s = .refused r → M.run (k + 1) s = .refused r) := by
  refine ⟨fun t h => ?_, fun e h => ?_, fun r h => ?_⟩ <;> rw [Host.Core.run.eq_def] <;> simp [h]

/-- `run` is the host's run of this machine. -/
theorem run_eq_core_run (k : Nat) (s : State) : run k s = Host.Core.run Sys2Proof.core k s := by
  induction k generalizing s with
  | zero => rfl
  | succ k ih =>
    obtain ⟨hnext, hfault, hrefused⟩ := core_run_succ Sys2Proof.core k s
    cases h : step s with
    | next t => rw [run_succ_of_next h, ih t]; exact (hnext t h).symm
    | fault e => rw [run_succ_of_fault h]; exact (hfault e h).symm
    | refused r => rw [run, h]; exact (hrefused r h).symm

end Sys2Proof.Machine
end

