-- ==== Sys2Proof/Tests/Slice0.lean ====
section
/-! SUPPORT. The model's own tests. Expected results come from the vectors V1 to V117 and the programs of 95_test_vectors.md, or are worked out by
hand from the rule named. The `test_witness_` theorems show, for each statement with hypotheses, values that meet them. -/

namespace Sys2Proof.Tests
open Sys2Proof Sys2Proof.Machine

/-! ## Helpers -/

/-- The outputs after the word is the first command from power-up. -/
def outputsOf (w : Nat) : Option Outputs :=
  match step (State.reset.withFetchWord 68 w) with
  | .next s => s.last
  | _ => none

/-- A state whose host does these things. -/
def doing (h : List HostAction) : State := { State.reset with host := h }

/-- The host presents this command, every bit driven. -/
def give (w : CommandWord) : HostAction := .present (Inputs.ofCommand (commandOfWord w))

/-- The fault a run of `k` steps ends in, if any. -/
def faultOf (k : Nat) (s : State) : Option Fault :=
  match run k s with
  | .fault e => some e
  | _ => none

/-! ## Well-formedness: each check refuses an ill-formed term -/

theorem test_wf_word : wordWellFormed (2 ^ 68) = false ∧ wordWellFormed (2 ^ 68 - 1) = true := by decide
theorem test_wf_tmo2mclk : (AsmLine.tmo2mclk (some (.lit 0x10000))).wellFormed [] = false := by decide
theorem test_wf_mclk2tmo : (AsmLine.mclk2tmo (some (.lit 0x100000000))).wellFormed [] = false := by decide
theorem test_wf_mclk2us_mclks : (AsmLine.mclk2us (some (.lit 0x100000000)) none).wellFormed [] = false := by decide
theorem test_wf_mclk2us_pclks : (AsmLine.mclk2us none (some (.lit 0x10000))).wellFormed [] = false := by decide
theorem test_wf_us2mclk_us : (AsmLine.us2mclk (some (.lit 0x100000000)) none).wellFormed [] = false := by decide
theorem test_wf_us2mclk_pclks : (AsmLine.us2mclk none (some (.lit 0x10000))).wellFormed [] = false := by decide
theorem test_wf_vcsel2pclk : (AsmLine.vcsel2pclk (some (.lit 0x100))).wellFormed [] = false := by decide
theorem test_wf_spadinfo : (AsmLine.spadinfo (some (.lit 0x100))).wellFormed [] = false := by decide
theorem test_wf_spadmap_map : (AsmLine.spadmap (some (.word (.lit 0x1000000000000))) none none).wellFormed [] = false := by decide
theorem test_wf_spadmap_bytes :
    (List.range 6).all (fun k =>
      let b := fun j => AsmOperand.lit (if j = k then 0x100 else 0xFF)
      !(AsmLine.spadmap (some (.bytes (b 0) (b 1) (b 2) (b 3) (b 4) (b 5))) none none).wellFormed []) = true := by decide
theorem test_wf_spadmap_count : (AsmLine.spadmap none (some (.lit 0x100)) none).wellFormed [] = false := by decide
theorem test_wf_spadmap_aperture : (AsmLine.spadmap none none (some (.lit 2))).wellFormed [] = false := by decide
theorem test_wf_packed_map :
    (AsmLine.spadmapPacked (some (.word (.lit 0x1000000000000))) (.lit 0)).wellFormed [] = false := by decide
theorem test_wf_packed_b : (AsmLine.spadmapPacked none (.lit 0x10000)).wellFormed [] = false := by decide
theorem test_wf_missing_variable : (AsmLine.vcsel2pclk (some (.var 1))).wellFormed [7] = false := by decide

/-! ## Decoding: words written out from 30_encoding.md R50 to R52, `CW = b ++ a ++ op` -/

theorem test_decode_tmo2mclk : decodeWord (0x0000#16 ++ 0x000000000203#48 ++ 0b0001#4) = .tmo2mclk 0x0203 := by decide
theorem test_decode_mclk2tmo : decodeWord (0xFFFF#16 ++ 0xFFFF80000000#48 ++ 0b0010#4) = .mclk2tmo 0x80000000 := by decide
theorem test_decode_mclk2us : decodeWord (0x000E#16 ++ 0x000000000064#48 ++ 0b0011#4) = .mclk2us 100 14 := by decide
theorem test_decode_us2mclk : decodeWord (0x8001#16 ++ 0x000000005DC0#48 ++ 0b0100#4) = .us2mclk 24000 0x8001 := by decide
theorem test_decode_vcsel2pclk : decodeWord (0x0000#16 ++ 0x00000001FF06#48 ++ 0b0101#4) = .vcsel2pclk 6 := by decide
theorem test_decode_spadinfo : decodeWord (0x0000#16 ++ 0x000000003385#48 ++ 0b0110#4) = .spadinfo 0x85 := by decide
theorem test_decode_spadmap : decodeWord (0xFF05#16 ++ 0x800000000001#48 ++ 0b0111#4) = .spadmap 0x800000000001 5 true := by decide
theorem test_decode_reserved0 : decodeWord (0xFFFF#16 ++ 0x123456789ABC#48 ++ 0b0000#4) = .reserved0 := by decide
theorem test_decode_reserved8F : decodeWord (0xFFFF#16 ++ 0x123456789ABC#48 ++ 0b1010#4) = .reserved8F 2 := by decide

theorem test_decode_short_bytes : decodeBytes (List.replicate 8 0) = .error .tooShort := by rfl
theorem test_decode_padding : decodeBytes (List.replicate 8 0 ++ [0x10]) = .error .paddingNotZero := by rfl
theorem test_table_word_short : decodeTableWord 8 0x07 = some (.spadmap 0 0 false) := by decide
theorem test_table_word_long : decodeTableWord 72 0x0105FFFFFFFFFFFF7 = some (.spadmap 0xFFFFFFFFFFFF 5 true) := by decide

/-! ## One step of each instruction from power-up -/

/-- V12: the largest count without OVF at exponent 24. -/
theorem test_tmo2mclk_largest : outputsOf 0x00000000000018FF1 = some ⟨0xFF000001, 0, 0x0⟩ := by decide
/-- V19: the largest exact value. -/
theorem test_tmo2mclk_overflow : outputsOf 0x000000000000FFFF1 = some ⟨1, 0, 0x2⟩ := by decide
/-- V31. -/
theorem test_mclk2tmo_two_shifts : outputsOf 0x00000000000003E82 = some ⟨0x02F9, 0, 0x0⟩ := by decide
/-- V39: a count of 2^31 is not negative. -/
theorem test_mclk2tmo_clamp : outputsOf 0x00000000800000002 = some ⟨0x08FF, 0, 0x4⟩ := by decide
/-- V53. -/
theorem test_mclk2us_largest : outputsOf 0x000E000004CBA23C3 = some ⟨0xFFFFFFD5, 0, 0x0⟩ := by decide
/-- V58. -/
theorem test_mclk2us_overflow : outputsOf 0xFFFF0000FFFFFFFF3 = some ⟨0xD1A813D5, 0, 0x2⟩ := by decide
/-- V62. -/
theorem test_us2mclk_rounds_up : outputsOf 0x000E00000000001B4 = some ⟨1, 0, 0x0⟩ := by decide
/-- V72. -/
theorem test_us2mclk_zero_period : outputsOf 0x00000000000000004 = some ⟨0, 0, 0x8⟩ := by decide
/-- V80. -/
theorem test_vcsel2pclk_largest : outputsOf 0x00000000000000FF5 = some ⟨512, 0, 0x0⟩ := by decide
/-- V85. -/
theorem test_spadinfo_aperture : outputsOf 0x00000000000000856 = some ⟨0x105, 0, 0x0⟩ := by decide
/-- V88. -/
theorem test_spadinfo_all_ones : outputsOf 0x00000000000000FF6 = some ⟨0x17F, 0, 0x0⟩ := by decide
/-- V104: program P3. -/
theorem test_spadmap_program : outputsOf 0x010AFF55AA0FF0007 = some ⟨0x00000A0FF000, 10, 0x0⟩ := by decide +kernel
/-- V107: bit 0 and bit 47. -/
theorem test_spadmap_ends : outputsOf 0x00028000000000017 = some ⟨0x800000000001, 2, 0x0⟩ := by decide +kernel
/-- V109. -/
theorem test_reserved0 : outputsOf 0xFFFF123456789ABC0 = some ⟨0, 0, 0x1⟩ := by decide
/-- V117. -/
theorem test_reserved8F : outputsOf 0xFFFF123456789ABCF = some ⟨0, 0, 0x1⟩ := by decide

/-! ## The host's use of outcomes, and its sequences -/

/-- Program P4, line 1: using an overflowed count faults. -/
theorem test_use_overflow : faultOf 2 (doing [give 0x00000000000019801, .use]) = some .ovf := by decide
/-- Program P4, line 2: a clamped pair is an ordinary value. -/
theorem test_use_saturated : faultOf 2 (doing [give 0x00000000000100002, .use]) = none := by decide
/-- Program P4, lines 3 and 4. -/
theorem test_use_zero_period : faultOf 2 (doing [give 0x00000000000000644, .use]) = some .dz := by decide
theorem test_use_reserved : faultOf 2 (doing [give 0x0045000000000123F, .use]) = some .ill := by decide
/-- 10_state.md R27: before the first evaluation. -/
theorem test_use_nothing : faultOf 1 (doing [.use]) = some .noValue := by decide
/-- 70_reset_and_hazards.md R150: one read bit undriven takes the value away again. -/
theorem test_undriven_bit : faultOf 3 (doing [give 0x00000000000000065,
    .present { Inputs.ofCommand (commandOfWord 0x00000000000000065) with aDriven := 0xFFFFFFFFFF7F }, .use]) = some .noValue := by decide
/-- 10_state.md R28: an undriven bit that is not read has no effect. -/
theorem test_undriven_unread_bit : faultOf 2 (doing [
    .present { Inputs.ofCommand (commandOfWord 0x00000000000000065) with aDriven := 0xFF, bDriven := 0 }, .use]) = none := by decide
/-- Program P1, and its end without pre-range. -/
theorem test_write_final_range : (writeFinalRange 24000 10 299 true).toOption = some ⟨0x02E7, 0, 0⟩ := by decide
theorem test_write_final_range_alone : (writeFinalRange 24000 10 299 false).toOption = some ⟨0x029D, 0, 0⟩ := by decide
/-- Program P2. -/
theorem test_read_final_range : (readFinalRange 0x02E7 0x0195 10 true).toOption = some ⟨23889, 0, 0⟩ := by decide
/-- Program P3's lines as the assembler writes them (30_encoding.md R56). -/
theorem test_assemble_bytes :
    (assemble [0x10A] (.spadmapPacked (some (.bytes (.lit 0) (.lit 0xF0) (.lit 0x0F) (.lit 0xAA) (.lit 0x55) (.lit 0xFF))) (.var 0))).map
      commandToWord = some 0x010AFF55AA0FF0007 := by decide

/-! ## Wire bytes -/

/-- P1: the pair written for 928 clocks goes out as the bytes 0x02, 0xE7, and the pre-range bytes 0x01, 0x95 are raw 0x0195. -/
theorem test_wire_timeout_pair : pairToWire (eval (.mclk2tmo 928)).y = [0x02, 0xE7] ∧ pairOfWire 0x01 0x95 = 0x0195 := by decide

/-- P3: the map's bytes in read order make the operand of V104, and its result is written back as the listed bytes. -/
theorem test_wire_spad_map :
    mapOfWire 0x00 0xF0 0x0F 0xAA 0x55 0xFF = 0xFF55AA0FF000 ∧
    mapToWire 0x00000A0FF000 = [0x00, 0xF0, 0x0F, 0x0A, 0x00, 0x00] := by decide

/-! ## Witnesses: values that meet the hypotheses of each statement -/

/-- A command of each op code. -/
def cmd (op : OpBits) : Command := { op := op, a := 0x000000000064, b := 14 }

/-- The `c.op = …` hypotheses of Tmo2mclkExpandsPair, Mclk2tmoCompressesCount, Mclk2usConverts, Us2mclkConverts,
Vcsel2pclkDecodesPeriod, SpadinfoSplitsByte, SpadmapVisitsBitsInOrder and ReservedOpsDriveIllegal. -/
theorem test_witness_op_codes : [1, 2, 3, 4, 5, 6, 7, 0, 8, 15].map (fun n => (cmd (BitVec.ofNat 4 n)).op.toNat) = [1, 2, 3, 4, 5, 6, 7, 0, 8, 15] := by
  decide
theorem test_witness_Tmo2mclkOverflowsExactly :
    (0x00FF#16).toNat / 256 = 0 ∧ flagSet (eval (.tmo2mclk 0x18FF)).f .ovf = false ∧ flagSet (eval (.tmo2mclk 0x1980)).f .ovf = true := by
  decide
theorem test_witness_TencShifterEqualsExpansion : 32 ≤ (pairMsb 0x2001).toNat ∧ 1 ≤ (pairMsb 0x01FF).toNat := by decide
theorem test_witness_Tmo2mclkNeverYieldsZero : 1 ≤ (0x0100#16).toNat / 256 ∧ (0x00FF#16).toNat / 256 = 0 := by decide
theorem test_witness_Mclk2tmoCompressesCount : (0#32).toNat = 0 ∧ (1#32).toNat ≠ 0 := by decide
theorem test_witness_TdecShifterEqualsLoop : 1 ≤ (1#32).toNat ∧ tdecShifter 0x101 = (0x80, 1) := by decide
theorem test_witness_Mclk2tmoYieldsCanonicalPairs :
    (eval (.mclk2tmo 0x100)).y.toNat / 256 = 0 ∧ 1 ≤ (eval (.mclk2tmo 0x101)).y.toNat / 256 := by decide
theorem test_witness_TimeoutRoundTripLosesLowBitsOnly :
    1 ≤ (257#32).toNat ∧ (257#32).toNat ≤ 257 ∧ (0xFFFF#32).toNat ≤ 0xFFFF ∧ expanded (compressed 0xFFFF) = 65281 := by decide
theorem test_witness_CanonicalPairsAreFixedPoints :
    canonicalPair 0x0880 = true ∧ canonicalPair 0x017F = false ∧ canonicalPair 0x0900 = false := by decide
theorem test_witness_TimeoutRoundTripMonotone :
    1 ≤ (1#32).toNat ∧ (1#32).toNat ≤ (0xFFFF#32).toNat ∧ (0xFFFF#32).toNat ≤ 0xFFFF := by decide
theorem test_witness_MacroPeriodValues : (1 : Nat) ≤ 1 ∧ (0 : Nat) < 1 := by decide
theorem test_witness_Mclk2usOverflowsExactly :
    flagSet (eval (.mclk2us 80454204 14)).f .ovf = false ∧ flagSet (eval (.mclk2us 80454205 14)).f .ovf = true := by decide
theorem test_witness_Us2mclkNeverOverflows : (1#16) ≠ 0 := by decide
theorem test_witness_ClockConversionInverse :
    (50#16) ≠ 0 ∧ (List.range 2000).any (fun m =>
      !flagSet (eval (.mclk2us (BitVec.ofNat 32 m) 50)).f .ovf &&
      (eval (.us2mclk ((eval (.mclk2us (BitVec.ofNat 32 m) 50)).y.setWidth 32) 50)).y.toNat == m + 1) = true := by decide +kernel
theorem test_witness_ClockConversionExactPeriods :
    flagSet (eval (.mclk2us 69999 24)).f .ovf = false ∧ (24#16) ∈ [12, 14, 16, 18, 24] ∧ 2 ≤ (2#16).toNat ∧
    (512#16).toNat ≤ 512 ∧ (512#16).toNat % 2 = 0 ∧ (512#16).toNat % 50 ≠ 0 ∧ flagSet (eval (.mclk2us 1 512)).f .ovf = false := by decide
theorem test_witness_ReverseConversionMovesUp :
    flagSet (eval (.mclk2us ((eval (.us2mclk 46 24)).y.setWidth 32) 24)).f .ovf = false := by decide
theorem test_witness_Us2mclkConverts : (14#16) ≠ 0 ∧ (0#16) = 0 := by decide
theorem test_witness_SpadShifterNamesPortBit : (0 : Nat) < 48 ∧ (47 : Nat) < 48 := by decide
theorem test_witness_WireBytesMapToPorts : (0 : Nat) < 48 ∧ (47 : Nat) < 48 := by decide
theorem test_witness_DecoderFollowsOpcodeTable :
    (⟨"RESERVED8-F", 0x8, 0x8⟩ : OpcodeRow) ∈ opcodeRows ∧ rowHolds ⟨"RESERVED8-F", 0x8, 0x8⟩ 0xF = true ∧
    (⟨"SPADMAP", 0x7, 0xF⟩ : OpcodeRow) ∈ opcodeRows ∧ rowHolds ⟨"SPADMAP", 0x7, 0xF⟩ 0x7 = true := by decide
theorem test_witness_SpadmapKeepsLowestCapable :
    (0xFFFFFFFFFFFF#48).getLsbD 12 = true ∧ (eval (.spadmap 0xFFFFFFFFFFFF 2 true)).y.getLsbD 13 = true := by decide +kernel
theorem test_witness_SpadmapPolicyIsGreedy :
    popcount (0x6000#48) = min (2#8).toNat (popcountRange (0xFFFFFFFFE000#48) 12 48) ∧
    (∀ i < 48, (0x6000#48).getLsbD i = true → (0xFFFFFFFFE000#48).getLsbD i = true ∧ 12 ≤ i) ∧
    (∀ i < 48, ∀ j < i, 12 ≤ j → (0xFFFFFFFFE000#48).getLsbD j = true → (0x6000#48).getLsbD i = true → (0x6000#48).getLsbD j = true) := by
  decide +kernel
theorem test_witness_SpadmapFewPadsKeptAll :
    popcountRange (0xFFFFFFFFFFFF#48) 12 48 ≤ (36#8).toNat ∧ popcountRange (0xFFFFFFFFFFFF#48) 0 48 ≤ (48#8).toNat := by decide +kernel
theorem test_witness_ReservedOpsDriveIllegal : (cmd 0x0).op = 0x0 ∧ 0x8 ≤ (cmd 0x8).op.toNat := by decide
theorem test_witness_AtMostOneFlagPerCommand :
    flagSet (eval .reserved0).f .ill = true ∧ flagSet (eval (.mclk2us 0xFFFFFFFF 1)).f .ovf = true ∧
    flagSet (eval (.tmo2mclk 0x1980)).f .ovf = true ∧ flagSet (eval (.mclk2tmo 0x10000)).f .sat = true ∧
    flagSet (eval (.us2mclk 1 0)).f .dz = true := by decide
theorem test_witness_UseFaultsOnFlaggedOutcome :
    let s : Option Outputs → State := fun o => { State.reset with last := o, host := [.use] }
    (s none).host = [.use] ∧ (s none).last = none ∧
    (eval (.mclk2tmo 1)).f = 0x0 ∧ (eval (.mclk2tmo 0x10000)).f = 0x4 ∧
    step (s (some (eval (.us2mclk 1 0)))) = .fault .dz := ⟨rfl, rfl, by decide, by decide, rfl⟩
theorem test_witness_UnreadInputBitsIgnored :
    let p := Inputs.ofCommand (cmd 0x5)
    let q : Inputs := { p with a := 0xFFFFFFFFFF64, aDriven := 0xFF, b := 0xFFFF, bDriven := 0 }
    settledInstr p = some (.vcsel2pclk 0x64) ∧ p.op = q.op ∧ q.opDriven = BitVec.allOnes 4 ∧
    p.a &&& readsA (.vcsel2pclk 0x64) = q.a &&& readsA (.vcsel2pclk 0x64) ∧
    p.b &&& readsB (.vcsel2pclk 0x64) = q.b &&& readsB (.vcsel2pclk 0x64) ∧
    q.aDriven &&& readsA (.vcsel2pclk 0x64) = readsA (.vcsel2pclk 0x64) ∧
    q.bDriven &&& readsB (.vcsel2pclk 0x64) = readsB (.vcsel2pclk 0x64) := by decide
theorem test_witness_AssemblerLinesDecode :
    AsmFieldIs [] none 0 ∧ AsmFieldIs [] (some (.lit 0xFFFF)) 0xFFFF ∧ AsmFieldIs [3, 0xFFFFFFFF] (some (.var 1)) 0xFFFFFFFF ∧
    AsmMapIs [] none 0 ∧ AsmMapIs [] (some (.word (.lit 0xFFFFFFFFFFFF))) 0xFFFFFFFFFFFF ∧
    AsmMapIs [9] (some (.bytes (.lit 255) (.var 0) (.lit 0) (.lit 0) (.lit 0) (.lit 128))) 0x8000000009FF ∧
    AsmOperandIs [0x10A] (.var 0) 0x10A ∧ (0x10A : Nat) < 2 ^ 16 :=
  ⟨.inl ⟨rfl, rfl⟩, .inr ⟨_, rfl, .inl rfl⟩, .inr ⟨_, rfl, .inr ⟨1, rfl, rfl⟩⟩, .inl ⟨rfl, rfl⟩, .inr (.inl ⟨_, rfl, .inl rfl⟩),
    .inr (.inr ⟨_, _, _, _, _, _, 255, 9, 0, 0, 0, 128, rfl, ⟨.inl rfl, by decide⟩, ⟨.inr ⟨0, rfl, rfl⟩, by decide⟩,
      ⟨.inl rfl, by decide⟩, ⟨.inl rfl, by decide⟩, ⟨.inl rfl, by decide⟩, ⟨.inl rfl, by decide⟩, rfl⟩),
    .inr ⟨0, rfl, rfl⟩, by decide⟩
theorem test_witness_StepRunsDecodedInstruction :
    (doing [give 0x65]).host = .present (Inputs.ofCommand (commandOfWord 0x65)) :: [] ∧
    settledInstr (Inputs.ofCommand (commandOfWord 0x65)) = some (.vcsel2pclk 6) ∧
    settledInstr ({ doing [] with inputs := Inputs.ofCommand (commandOfWord 0x65) }).inputs = some (.vcsel2pclk 6) := by decide
theorem test_witness_UndrivenInputsGiveNoValue :
    let p := Inputs.ofCommand (commandOfWord 0x65)
    ({ p with opDriven := 0x7 } : Inputs).opDriven.getLsbD 3 = false ∧
    ((readsA (decode p.command)).getLsbD 7 = true ∧ ({ p with aDriven := 0xFFFFFFFFFF7F } : Inputs).aDriven.getLsbD 7 = false) ∧
    ((readsB (.mclk2us 0 0)).getLsbD 15 = true ∧ ({ p with bDriven := 0x7FFF } : Inputs).bDriven.getLsbD 15 = false) := by decide
theorem test_witness_StepFrame :
    step (doing []) = .next (doing []) ∧ (doing [.use]).host.head? = some .use ∧
    (doing [give 0x65]).host.head? = some (give 0x65) ∧
    step { doing [.use] with last := some ⟨14, 0, 0⟩ } = .next { doing [] with last := some ⟨14, 0, 0⟩ } := ⟨rfl, rfl, rfl, rfl⟩
theorem test_witness_EvaluationIsIdempotent :
    (doing []).host = [] ∧ (doing [give 0x65, give 0x65]).host = [give 0x65, give 0x65] := ⟨rfl, rfl⟩
theorem test_witness_OutputsForgetEarlierCommands :
    (doing [give 0x0, give 0x65]).host =
      [Inputs.ofCommand (commandOfWord 0x0)].map .present ++ .present (Inputs.ofCommand (commandOfWord 0x65)) :: [] := rfl
theorem test_witness_PresentingNeverStops :
    (doing [give 0x0]).host = [Inputs.ofCommand (commandOfWord 0x0)].map .present := rfl
/-- StepKeepsLegalOutputs, StepKeepsOutputsFollowingInputs and EvaluationRestoresOutputs. -/
theorem test_witness_invariants : OutputsFollowInputs State.reset ∧ LegalState State.reset ∧ step State.reset = .next State.reset ∧
    State.reset.host.head? ≠ some .use := ⟨rfl, fun _ h => absurd h (by simp [State.reset]), rfl, by decide⟩
theorem test_witness_FinalRangeWriteSequence :
    (1#16) ≠ 0 ∧ (24000 * 1000 + macroPeriod 10 / 2) / macroPeriod 10 + 299 < 2 ^ 32 ∧
    2 ^ 32 ≤ (24000 * 1000 + macroPeriod 10 / 2) / macroPeriod 10 + (0xFFFFFFFF#32).toNat := by decide
theorem test_witness_FinalRangeReadSequence :
    let count := fun r : BitVec 16 => r.toNat % 256 * 2 ^ (r.toNat / 256) + 1
    2 ^ 32 ≤ count 0x1980 ∧ count 0x18FF < 2 ^ 32 ∧ count 0x0195 ≤ count 0x0195 ∧ count 0x0000 < count 0x0001 ∧
    (canonicalPair 0x18FF = false ∧ canonicalPair 0x1980 = false) := by decide
/-- R155 on other register values: a pre-range overflow faults where it is used and does not matter elsewhere, and a final-range
count below the pre-range count faults. -/
theorem test_read_final_range_faults :
    readFinalRange 0x02E7 0x1980 10 true = .error .ovf ∧ readFinalRange 0x02E7 0x1980 10 false = readFinalRange 0x02E7 0 10 false ∧
    readFinalRange 0x0195 0x02E7 10 true = .error .hostRange := ⟨rfl, rfl, rfl⟩
theorem test_witness_FinalRangeWriteThenRead :
    (10#16) ≠ 0 ∧ flagSet (eval (.tmo2mclk 0x0195)).f .ovf = false ∧
    (24000 * 1000 + macroPeriod 10 / 2) / macroPeriod 10 + (expanded 0x0195).toNat = 928 ∧
    (writeFinalRange 24000 10 (expanded 0x0195) true).toOption = some (eval (.mclk2tmo 928)) ∧
    (readFinalRange 0x02E7 0x0195 10 true).toOption = some ⟨23889, 0, 0⟩ := by decide

end Sys2Proof.Tests
end

section
/-! PROOFS. 00_scope.md: where a step can stop (O45), and which instruction it runs (O40). -/

namespace Sys2Proof.Machine

/-! ## Steps that go on and steps that stop -/

/-- A use goes on exactly where the outcome has a value, and otherwise stops with the reason it has none. -/
theorem useStep_cases (s : State) :
    (∃ o, useLast s = .ok o ∧ useStep s = .next s) ∨ ∃ e, useLast s = .error e ∧ useStep s = .fault e := by
  cases h : useLast s with
  | ok o => exact .inl ⟨o, rfl, (useStep_eq_next_iff s).2 ⟨o, h⟩⟩
  | error e => exact .inr ⟨e, rfl, useStep_fault h⟩

@[simp] theorem useLast_setHost (s : State) (rest : List HostAction) : useLast { s with host := rest } = useLast s := rfl

/-- Settles O45: holding and presenting only settle the ports, which always goes on; a use stops where `Last` is no value. -/
theorem onlyUseStops : Obligations.OnlyUseStops := by
  refine ⟨fun i s => ⟨_, exec_eq_next i s⟩, fun s => ?_⟩
  obtain ⟨-, hold⟩ | ⟨p, rest, -, presented⟩ | ⟨rest, hhost, used⟩ := step_cases s
  · exact .inl ⟨_, hold.trans (settle_eq _)⟩
  · exact .inl ⟨_, presented.trans (settle_eq _)⟩
  · obtain ⟨o, -, next⟩ | ⟨e, noValue, fault⟩ := useStep_cases { s with host := rest }
    · exact .inl ⟨_, used.trans next⟩
    · exact .inr ⟨rest, e, hhost, used.trans fault, by rwa [useLast_setHost] at noValue⟩

/-! ## The instruction a step runs -/

/-- Settled ports hold the instruction that their values decode to. -/
theorem eq_decode_of_settledInstr {p : Inputs} {i : Instr} (h : settledInstr p = some i) : i = decode p.command := by
  unfold settledInstr at h
  split at h
  · exact (Option.some.inj h).symm
  · cases h

theorem step_hold_of_settled {s : State} {i : Instr} (hhost : s.host = []) (h : settledInstr s.inputs = some i) :
    step s = exec i s :=
  (step_hold hhost).trans (settle_of_some h)

theorem step_present_of_settled {s : State} {p : Inputs} {rest : List HostAction} {i : Instr}
    (hhost : s.host = .present p :: rest) (h : settledInstr p = some i) :
    step s = exec i { s with inputs := p, host := rest } :=
  (step_present hhost).trans (settle_of_some h)

/-- A command with every bit driven is always settled (70_reset_and_hazards.md R153), so presenting it runs it. -/
theorem step_present_command {s : State} {c : Command} {rest : List HostAction}
    (hhost : s.host = .present (Inputs.ofCommand c) :: rest) :
    step s = exec (decode c) { s with inputs := Inputs.ofCommand c, host := rest } :=
  step_present_of_settled hhost (settledInstr_ofCommand c)

/-- Fetching all 68 bits of a command word places that word's command in front of the host's list. -/
theorem withFetchWord_host_of_word (s : State) (w : CommandWord) :
    (s.withFetchWord 68 w.toNat).host = .present (Inputs.ofCommand (commandOfWord w)) :: s.host := by
  rw [State.withFetchWord_host, Nat.mod_eq_of_lt w.isLt, BitVec.ofNat_toNat, BitVec.setWidth_eq]

/-- Settles O40: a step that holds or presents inputs settles the ports, and settled ports run what they decode to. -/
theorem stepRunsDecodedInstruction : Obligations.StepRunsDecodedInstruction := by
  refine ⟨fun s c rest hhost => step_present_command hhost, fun s p rest i hhost h => ?_, fun s i hhost h => ?_, fun s w => ?_⟩
  · exact ⟨eq_decode_of_settledInstr h, step_present_of_settled hhost h⟩
  · exact ⟨eq_decode_of_settledInstr h, step_hold_of_settled hhost h⟩
  · exact step_present_command (withFetchWord_host_of_word s w)

end Sys2Proof.Machine
end

section
/-! PROOFS. 10_state.md: what a step changes (O42, O44), outputs that follow the inputs and stay legal (O48, O49), and the input
bits that an operation ignores (O38). -/

namespace Sys2Proof.Machine

/-! ## What a step that goes on leaves -/

theorem step_hold_eq {s : State} (h : s.host = []) : step s = .next { s with last := settledOutputs s.inputs } :=
  (step_hold h).trans (settle_eq s)

theorem step_present_eq {s : State} {p : Inputs} {rest : List HostAction} (h : s.host = .present p :: rest) :
    step s = .next { inputs := p, last := settledOutputs p, host := rest } :=
  (step_present h).trans (settle_eq _)

/-- The successor of a step that goes on, for each thing the host can do. -/
theorem step_next_cases {s t : State} (h : step s = .next t) :
    (s.host = [] ∧ t = { s with last := settledOutputs s.inputs }) ∨
    (∃ p rest, s.host = .present p :: rest ∧ t = { inputs := p, last := settledOutputs p, host := rest }) ∨
    (∃ rest, s.host = .use :: rest ∧ t = { s with host := rest }) := by
  obtain ⟨hhost, -⟩ | ⟨p, rest, hhost, -⟩ | ⟨rest, hhost, used⟩ := step_cases s
  · exact .inl ⟨hhost, Host.Outcome.next.inj (h.symm.trans (step_hold_eq hhost))⟩
  · exact .inr (.inl ⟨p, rest, hhost, Host.Outcome.next.inj (h.symm.trans (step_present_eq hhost))⟩)
  · exact .inr (.inr ⟨rest, hhost, useStep_next (used.symm.trans h)⟩)

/-- Settles O48: an evaluation makes the outputs follow the inputs, and a use changes neither. -/
theorem stepKeepsOutputsFollowingInputs : Obligations.StepKeepsOutputsFollowingInputs := by
  intro s t hs h
  obtain ⟨-, rfl⟩ | ⟨p, rest, -, rfl⟩ | ⟨rest, -, rfl⟩ := step_next_cases h
  · exact rfl
  · exact rfl
  · exact hs

/-- Settles O42: `exec` writes `Last` alone, and each of the three steps leaves its successor written out. -/
theorem stepFrame : Obligations.StepFrame := by
  refine ⟨fun i s t h => ?_, fun s t h => ?_⟩
  · obtain rfl := Host.Outcome.next.inj ((exec_eq_next i s).symm.trans h)
    exact ⟨rfl, rfl⟩
  · obtain ⟨hhost, rfl⟩ | ⟨p, rest, hhost, rfl⟩ | ⟨rest, hhost, rfl⟩ := step_next_cases h <;> simp [hhost]

/-- Settles O44, by induction on the earlier commands: each of them only leads to a state that presents the next one. -/
theorem outputsForgetEarlierCommands : Obligations.OutputsForgetEarlierCommands := by
  intro s before p rest hhost
  induction before generalizing s with
  | nil => exact run_succ_of_next (step_present_eq hhost)
  | cons q before ih => exact (run_succ_of_next (step_present_eq hhost)).trans (ih _ rfl)

/-! ## The input bits an operation reads -/

theorem extractLsb'_eq_of_and_eq {w lo n : Nat} {x y m : BitVec w} (h : x &&& m = y &&& m)
    (hm : m.extractLsb' lo n = BitVec.allOnes n) : x.extractLsb' lo n = y.extractLsb' lo n := by
  simpa [BitVec.extractLsb'_and, hm] using congrArg (BitVec.extractLsb' lo n) h

theorem getLsbD_eq_of_and_eq {w i : Nat} {x y m : BitVec w} (h : x &&& m = y &&& m) (hm : m.getLsbD i = true) :
    x.getLsbD i = y.getLsbD i := by
  simpa [hm] using congrArg (BitVec.getLsbD · i) h

theorem eq_of_and_eq {w : Nat} {x y m : BitVec w} (h : x &&& m = y &&& m) (hm : m = BitVec.allOnes w) : x = y := by
  simpa [hm] using h

/-- The decoder takes from `a` and `b` only bits that the selected operation reads (30_encoding.md R52), so commands with the
same op that agree there decode alike. -/
theorem decode_eq_of_reads_eq {c d : Command} (hop : c.op = d.op)
    (ha : c.a &&& readsA (decode c) = d.a &&& readsA (decode c))
    (hb : c.b &&& readsB (decode c) = d.b &&& readsB (decode c)) : decode c = decode d := by
  unfold decode at *
  rw [← hop]
  generalize c.op.toNat = code at *
  match code with
  | 0 => rfl
  | 1 => exact congrArg Instr.tmo2mclk (extractLsb'_eq_of_and_eq (m := 0xFFFF) ha (by decide))
  | 2 => exact congrArg Instr.mclk2tmo (extractLsb'_eq_of_and_eq (m := 0xFFFFFFFF) ha (by decide))
  | 3 =>
    have hmclks := extractLsb'_eq_of_and_eq (m := 0xFFFFFFFF) (lo := 0) (n := 32) ha (by decide)
    exact congrArg₂ Instr.mclk2us hmclks (eq_of_and_eq (m := 0xFFFF) hb (by decide))
  | 4 =>
    have hus := extractLsb'_eq_of_and_eq (m := 0xFFFFFFFF) (lo := 0) (n := 32) ha (by decide)
    exact congrArg₂ Instr.us2mclk hus (eq_of_and_eq (m := 0xFFFF) hb (by decide))
  | 5 => exact congrArg Instr.vcsel2pclk (extractLsb'_eq_of_and_eq (m := 0xFF) ha (by decide))
  | 6 => exact congrArg Instr.spadinfo (extractLsb'_eq_of_and_eq (m := 0xFF) ha (by decide))
  | 7 =>
    have hmap : c.a = d.a := eq_of_and_eq (m := 0xFFFFFFFFFFFF) ha (by decide)
    have hcount := extractLsb'_eq_of_and_eq (m := 0x01FF) (lo := 0) (n := 8) hb (by decide)
    have haperture := getLsbD_eq_of_and_eq (m := 0x01FF) (i := 8) hb (by decide)
    simp only [hmap, hcount, haperture]
  | _ + 8 => rfl

/-- Ports are settled when `op` and the bits that the instruction on them reads are driven. -/
theorem settledInstr_of_driven {p : Inputs} {i : Instr} (hi : decode p.command = i) (hop : p.opDriven = BitVec.allOnes 4)
    (ha : p.aDriven &&& readsA i = readsA i) (hb : p.bDriven &&& readsB i = readsB i) : settledInstr p = some i := by
  subst hi
  exact if_pos ⟨hop, ha, hb⟩

/-- Settles O38: the second inputs decode to the same instruction and drive all it reads, so they show the same outputs. -/
theorem unreadInputBitsIgnored : Obligations.UnreadInputBitsIgnored := by
  intro p q i hp hop hqop ha hb hqa hqb
  obtain rfl := eq_decode_of_settledInstr hp
  have hdecode : decode q.command = decode p.command := (decode_eq_of_reads_eq hop ha hb).symm
  have hq : settledInstr q = some (decode p.command) := settledInstr_of_driven hdecode hqop hqa hqb
  exact ⟨hq, by simp only [settledOutputs, hq, hp]⟩

/-! ## The SPAD map's bits (42_spad.md R112, R114) -/

/-- The shift by whole bytes and the shift within the byte add up to the bit's index. -/
theorem shiftLeft_bit_byte_eq_twoPow (i : Nat) : (1#48 <<< (i % 8)) <<< (8 * (i / 8)) = BitVec.twoPow 48 i := by
  rw [← BitVec.shiftLeft_add, Nat.mod_add_div, BitVec.twoPow]

theorem getLsbD_clearMapBit (m : BitVec 48) (i j : Nat) :
    (clearMapBit m i).getLsbD j = (m.getLsbD j && decide (j ≠ i)) := by
  rw [clearMapBit, shiftLeft_bit_byte_eq_twoPow, BitVec.getLsbD_and, BitVec.getLsbD_not, BitVec.getLsbD_twoPow]
  by_cases hj : j < 48
  · by_cases hij : j = i
    · simp [← hij, hj]
    · simp [hj, hij, Ne.symm hij]
  · simp [hj, BitVec.getLsbD_of_ge m j (by omega)]

theorem readMapBit_eq_getLsbD (m : BitVec 48) (i : Nat) : readMapBit m i = m.getLsbD i := by
  have hbit : (mapByte m (i / 8) >>> (i % 8)).getLsbD 0 = m.getLsbD i := by
    simp [mapByte, Nat.mod_lt, Nat.div_add_mod]
  rw [readMapBit, BitVec.and_one_eq_setWidth_ofBool_getLsbD, hbit]
  cases m.getLsbD i <;> rfl

/-- A bit that has not been visited is as it was in the source. -/
theorem spadLoop_out_getLsbD_of_le (src : BitVec 48) (count first : Nat) {n i : Nat} (h : n ≤ i) :
    (spadLoop src count first n).out.getLsbD i = src.getLsbD i := by
  induction n with
  | zero => rfl
  | succ n ih =>
    rw [spadLoop_succ]
    obtain ⟨-, hv⟩ | ⟨-, -, hv⟩ | ⟨-, -, hv⟩ := spadVisit_cases src count first (spadLoop src count first n) n <;> rw [hv]
    · have hi : i ≠ n := by omega
      simp [getLsbD_clearMapBit, hi, ih (by omega)]
    · exact ih (by omega)
    · exact ih (by omega)

/-- After each visit the running count is the number of visited bits still set (42_spad.md R114). -/
theorem spadLoop_en_eq_popcountRange (src : BitVec 48) (count first n : Nat) :
    (spadLoop src count first n).en = popcountRange (spadLoop src count first n).out 0 n := by
  induction n with
  | zero => rfl
  | succ n ih =>
    have hsrc := spadLoop_out_getLsbD_of_le src count first (Nat.le_refl n)
    rw [spadLoop_succ, popcountRange_succ]
    obtain ⟨-, hv⟩ | ⟨-, hb, hv⟩ | ⟨-, hb, hv⟩ := spadVisit_cases src count first (spadLoop src count first n) n <;> rw [hv]
    · have hkept : popcountRange (clearMapBit (spadLoop src count first n).out n) 0 n =
          popcountRange (spadLoop src count first n).out 0 n :=
        popcountRange_congr fun i hi => by simp [getLsbD_clearMapBit, Nat.ne_of_lt hi]
      simp [getLsbD_clearMapBit, hkept, ih]
    · simp [hsrc, ← readMapBit_eq_getLsbD, hb, ih]
    · simp [hsrc, ← readMapBit_eq_getLsbD, hb, ih]

theorem spadLoop_en_le (src : BitVec 48) (count first n : Nat) : (spadLoop src count first n).en ≤ n := by
  rw [spadLoop_en_eq_popcountRange]
  exact popcountRange_le _ 0 n

theorem evalSpadmap_z_toNat (m : BitVec 48) (count : BitVec 8) (ap : Bool) :
    (evalSpadmap m count ap).z.toNat = (spadLoop m count.toNat (spadFirst ap) 48).en := by
  have hle : (spadLoop m count.toNat (spadFirst ap) 48).en ≤ 48 := spadLoop_en_le ..
  exact Nat.mod_eq_of_lt (Nat.lt_of_le_of_lt hle (by decide))

/-! ## Every evaluation's outputs are legal -/

theorem legalOutputs_of_unflagged {o : Outputs} (hf : o.f = 0) (hz : o.z = 0) : LegalOutputs o := by
  constructor <;> simp [hf, hz]

/-- Zero outputs are what every flag but SAT may come with (60_exceptions.md R131, R132, R134). -/
theorem legalOutputs_zero_raise {c : Cause} (hc : c ≠ .sat) : LegalOutputs { y := 0, z := 0, f := raise c } := by
  cases c with
  | sat => exact absurd rfl hc
  | ill | ovf | dz => constructor <;> decide

/-- A 32-bit result with its OVF flag, of TMO2MCLK and of MCLK2US. -/
theorem legalOutputs_resultY (n : Nat) : LegalOutputs { y := resultY n, z := 0, f := overflowFlag n } := by
  have hy : (resultY n).toNat < 2 ^ 32 := resultY_toNat n ▸ Nat.mod_lt n (by decide)
  rw [overflowFlag_eq]
  split
  · constructor <;> simp [-Nat.reducePow, hy]
  · exact legalOutputs_of_unflagged rfl rfl

/-- Every clamped count gives the largest pair (40_timeout.md R76). -/
theorem compressCount_of_clamp_lt {m : Nat} (h : Config.tmoClamp < m) : compressCount m = 0x08FF := by
  have hmin : min m Config.tmoClamp = Config.tmoClamp := Nat.min_eq_right h.le
  have hm : m ≠ 0 := Nat.ne_of_gt (Nat.zero_lt_of_lt h)
  rw [compressCount, if_neg hm, hmin]
  decide

theorem legalOutputs_evalMclk2tmo (mclks : BitVec 32) : LegalOutputs (evalMclk2tmo mclks) := by
  unfold evalMclk2tmo
  by_cases h : Config.tmoClamp < mclks.toNat
  · rw [compressCount_of_clamp_lt h, decide_eq_true h]
    constructor <;> decide
  · exact legalOutputs_of_unflagged (by simp only [decide_eq_false h]; rfl) rfl

theorem legalOutputs_evalUs2mclk (us : BitVec 32) (p : BitVec 16) : LegalOutputs (evalUs2mclk us p) := by
  unfold evalUs2mclk
  split
  · exact legalOutputs_zero_raise (by decide)
  · exact legalOutputs_of_unflagged rfl rfl

theorem legalOutputs_evalSpadmap (m : BitVec 48) (count : BitVec 8) (ap : Bool) : LegalOutputs (evalSpadmap m count ap) where
  oneFlag := .inl rfl
  illegalDrivesZero h := absurd h (by simp [evalSpadmap])
  overflowFitsResult h := absurd h (by simp [evalSpadmap])
  clampDrivesLargestPair h := absurd h (by simp [evalSpadmap])
  zeroPeriodDrivesZero h := absurd h (by simp [evalSpadmap])
  flaggedHasNoCount h := absurd rfl h
  countAtMost48 := by rw [evalSpadmap_z_toNat]; exact spadLoop_en_le ..
  countIsPopcount _ := by rw [evalSpadmap_z_toNat, spadLoop_en_eq_popcountRange]; rfl

/-- Whatever the command, its outputs are legal (60_exceptions.md R131 to R136, 42_spad.md R114, R116). -/
theorem legalOutputs_eval (i : Instr) : LegalOutputs (eval i) := by
  cases i with
  | tmo2mclk raw => exact legalOutputs_resultY (tmoExact raw)
  | mclk2tmo mclks => exact legalOutputs_evalMclk2tmo mclks
  | mclk2us mclks p => exact legalOutputs_resultY (usExact mclks.toNat p.toNat)
  | us2mclk us p => exact legalOutputs_evalUs2mclk us p
  | vcsel2pclk reg => exact legalOutputs_of_unflagged rfl rfl
  | spadinfo info => exact legalOutputs_of_unflagged rfl rfl
  | spadmap m count ap => exact legalOutputs_evalSpadmap m count ap
  | reserved0 | reserved8F low => exact legalOutputs_zero_raise (by decide)

/-- Outputs that follow the inputs are those of one command, or no value. -/
theorem legalState_of_outputsFollowInputs {s : State} (h : OutputsFollowInputs s) : LegalState s := by
  intro o ho
  obtain ⟨i, -, rfl⟩ := Option.map_eq_some_iff.1 (h.symm.trans ho)
  exact legalOutputs_eval i

/-- A step that goes on and is no use is one evaluation: it records what the inputs it leaves on the ports drive. -/
theorem outputsFollowInputs_of_evaluation {s t : State} (hact : s.host.head? ≠ some .use) (h : step s = .next t) :
    OutputsFollowInputs t := by
  obtain ⟨-, rfl⟩ | ⟨p, rest, -, rfl⟩ | ⟨rest, hhost, -⟩ := step_next_cases h
  · exact rfl
  · exact rfl
  · exact absurd (by rw [hhost, List.head?_cons]) hact

/-- Settles O49: an evaluation makes the outputs follow the inputs, and what follows the inputs is legal. -/
theorem evaluationRestoresOutputs : Obligations.EvaluationRestoresOutputs := by
  intro s t hact h
  have hfollow := outputsFollowInputs_of_evaluation hact h
  exact ⟨hfollow, legalState_of_outputsFollowInputs hfollow⟩

end Sys2Proof.Machine
end

section
/-! PROOFS. 20_memory.md: wire bytes and port bits (O28), and repeated evaluation (O43). -/

namespace Sys2Proof.Machine

/-! ## A byte below a longer value

Every packing of wire bytes appends one byte at a time, so three facts about `v ++ b` carry all of them. -/

theorem toNat_append_byte {w : Nat} (v : BitVec w) (b : Byte) : (v ++ b).toNat = v.toNat * 256 + b.toNat := by
  rw [BitVec.toNat_append, ← Nat.shiftLeft_add_eq_or_of_lt b.isLt, Nat.shiftLeft_eq]

theorem extractLsb'_zero_append_byte {w : Nat} (v : BitVec w) (b : Byte) : (v ++ b).extractLsb' 0 8 = b :=
  BitVec.extractLsb'_append_eq_right

theorem extractLsb'_add_append_byte {w : Nat} (v : BitVec w) (b : Byte) (lo : Nat) :
    (v ++ b).extractLsb' (lo + 8) 8 = v.extractLsb' lo 8 :=
  BitVec.extractLsb'_append_eq_of_le (Nat.le_add_left 8 lo)

/-- Neighbouring slices join, the lower one a byte. -/
theorem extractLsb'_append_extractLsb'_byte {w : Nat} (v : BitVec w) (lo n : Nat) :
    v.extractLsb' (lo + 8) n ++ v.extractLsb' lo 8 = v.extractLsb' lo (n + 8) :=
  BitVec.extractLsb'_append_extractLsb'_eq_extractLsb' rfl

/-! ## Timeout pairs (20_memory.md R43) -/

theorem pairMsb_pairOfWire (b0 b1 : Byte) : pairMsb (pairOfWire b0 b1) = b0 := BitVec.extractLsb'_append_eq_left

theorem pairLsb_pairOfWire (b0 b1 : Byte) : pairLsb (pairOfWire b0 b1) = b1 := BitVec.extractLsb'_append_eq_right

theorem pairOfWire_toNat (b0 b1 : Byte) : (pairOfWire b0 b1).toNat = bigEndian [b0, b1] := by
  simp [pairOfWire, toNat_append_byte, bigEndian]

/-- The two bytes that `pairToWire` sends read back as `y[15:0]`. -/
theorem pairOfWire_extractLsb' (y : PortY) : pairOfWire (y.extractLsb' 8 8) (y.extractLsb' 0 8) = y.setWidth 16 := by
  rw [BitVec.setWidth_eq_extractLsb' (by decide)]
  exact extractLsb'_append_extractLsb'_byte y 0 8

/-! ## SPAD maps (20_memory.md R44) -/

theorem mapToWire_eq (m : BitVec 48) :
    mapToWire m = [mapByte m 0, mapByte m 1, mapByte m 2, mapByte m 3, mapByte m 4, mapByte m 5] := rfl

theorem mapToWire_mapOfWire (b0 b1 b2 b3 b4 b5 : Byte) :
    mapToWire (mapOfWire b0 b1 b2 b3 b4 b5) = [b0, b1, b2, b3, b4, b5] := by
  simp [mapToWire_eq, mapByte, mapOfWire, extractLsb'_zero_append_byte, extractLsb'_add_append_byte]

theorem mapOfWire_mapByte (m : BitVec 48) :
    mapOfWire (mapByte m 0) (mapByte m 1) (mapByte m 2) (mapByte m 3) (mapByte m 4) (mapByte m 5) = m := by
  simp [mapOfWire, mapByte, extractLsb'_append_extractLsb'_byte]

theorem getLsbD_mapByte (m : BitVec 48) (i : Nat) : (mapByte m (i / 8)).getLsbD (i % 8) = m.getLsbD i := by
  simp [mapByte, Nat.mod_lt, Nat.div_add_mod]

theorem mapByte_mapOfWire (b0 b1 b2 b3 b4 b5 : Byte) {k : Nat} (hk : k < 6) :
    mapByte (mapOfWire b0 b1 b2 b3 b4 b5) k = [b0, b1, b2, b3, b4, b5][k] := by
  simp [← mapToWire_mapOfWire b0 b1 b2 b3 b4 b5, mapToWire]

/-- Settles O28: each packing appends bytes, the slice at a byte's place is that byte again, and neighbouring slices join; a map
bit is bit `i mod 8` of its slice `i / 8`. -/
theorem wireBytesMapToPorts : Obligations.WireBytesMapToPorts := by
  refine ⟨fun b0 b1 => ⟨pairMsb_pairOfWire b0 b1, pairLsb_pairOfWire b0 b1, pairOfWire_toNat b0 b1⟩,
    fun m => ⟨_, _, rfl, pairOfWire_extractLsb' _⟩,
    fun b0 b1 b2 b3 b4 b5 => ⟨mapToWire_mapOfWire b0 b1 b2 b3 b4 b5, fun i hi => ?_⟩,
    fun m => ⟨_, _, _, _, _, _, mapToWire_eq m, mapOfWire_mapByte m⟩,
    fun b0 b1 b2 b3 => ?_⟩
  · rw [← getLsbD_mapByte]
    have hk : i / 8 < 6 := by omega
    generalize i / 8 = k at hk
    rw [mapByte_mapOfWire b0 b1 b2 b3 b4 b5 hk]
    interval_cases k <;> rfl
  · simp [bigEndian, toNat_append_byte]

/-! ## Repeated evaluation (20_memory.md R47) -/

/-- Settles O43: a step that holds leaves what the held inputs drive, which the next such step writes again; and of two
presentations of the same command the second alone decides the outputs (O44). -/
theorem evaluationIsIdempotent : Obligations.EvaluationIsIdempotent := by
  refine ⟨fun s t hhost h => ?_, fun s p hhost => ?_⟩
  · obtain rfl := Host.Outcome.next.inj (h.symm.trans (step_hold_eq hhost))
    exact step_hold_eq hhost
  · exact ⟨_, step_present_eq rfl, outputsForgetEarlierCommands s [p] p [] hhost⟩

end Sys2Proof.Machine
end

section
/-! PROOFS. 30_encoding.md: the decoder and the encoder (O34, O37), reserved operations (O29) and the output bits that a result
does not use (O31). -/

namespace Sys2Proof.Machine

/-! ## The decoder, op by op (30_encoding.md R51) -/

theorem op_cases : ∀ op : OpBits,
    op = 0x0 ∨ op = 0x1 ∨ op = 0x2 ∨ op = 0x3 ∨ op = 0x4 ∨ op = 0x5 ∨ op = 0x6 ∨ op = 0x7 ∨ 8 ≤ op.toNat := by
  decide

theorem decode_eq_reserved0 {c : Command} (h : c.op = 0x0) : decode c = .reserved0 := by
  simp [decode, h]

theorem decode_eq_reserved8F {c : Command} (h : 8 ≤ c.op.toNat) : decode c = .reserved8F (c.op.extractLsb' 0 3) := by
  obtain ⟨k, hk⟩ := Nat.exists_eq_add_of_le' h
  rw [decode, hk]
  rfl

/-- What a command decodes to, for each op. -/
theorem decode_cases (c : Command) :
    (c.op = 0x0 ∧ decode c = .reserved0) ∨
    (c.op = 0x1 ∧ decode c = .tmo2mclk (c.a.extractLsb' 0 16)) ∨
    (c.op = 0x2 ∧ decode c = .mclk2tmo (c.a.extractLsb' 0 32)) ∨
    (c.op = 0x3 ∧ decode c = .mclk2us (c.a.extractLsb' 0 32) c.b) ∨
    (c.op = 0x4 ∧ decode c = .us2mclk (c.a.extractLsb' 0 32) c.b) ∨
    (c.op = 0x5 ∧ decode c = .vcsel2pclk (c.a.extractLsb' 0 8)) ∨
    (c.op = 0x6 ∧ decode c = .spadinfo (c.a.extractLsb' 0 8)) ∨
    (c.op = 0x7 ∧ decode c = .spadmap c.a (c.b.extractLsb' 0 8) (c.b.getLsbD 8)) ∨
    (8 ≤ c.op.toNat ∧ decode c = .reserved8F (c.op.extractLsb' 0 3)) := by
  obtain h | h | h | h | h | h | h | h | h := op_cases c.op
  case inr.inr.inr.inr.inr.inr.inr.inr => simp [h, decode_eq_reserved8F h]
  all_goals simp [h, decode]

/-- The operands do not decide which row a command falls under. -/
theorem decode_mnemonic_eq_of_op (c : Command) :
    (decode c).mnemonic = (decode { op := c.op, a := 0, b := 0 }).mnemonic := by
  obtain ⟨op, a, b⟩ := c
  obtain rfl | rfl | rfl | rfl | rfl | rfl | rfl | rfl | h := op_cases op
  case inr.inr.inr.inr.inr.inr.inr.inr => rw [decode_eq_reserved8F h, decode_eq_reserved8F h]
  all_goals rfl

/-- Settles O34: `op` alone decides the row and the mnemonic, which leaves the sixteen op codes to look at. -/
theorem decoderFollowsOpcodeTable : Obligations.DecoderFollowsOpcodeTable := by
  refine ⟨fun c r hr => ?_, by decide⟩
  rw [decode_mnemonic_eq_of_op]
  generalize c.op = op
  revert op r
  decide

/-! ## Encoding what a command decodes to (30_encoding.md R52) -/

/-- Taking the low `n` bits and extending them again clears the bits above them. -/
theorem setWidth_extractLsb'_eq_and {w n : Nat} {x m : BitVec w} (hm : m = (BitVec.allOnes n).setWidth w) :
    (x.extractLsb' 0 n).setWidth w = x &&& m := by
  subst hm
  apply BitVec.eq_of_getLsbD_eq
  intro i hi
  simp [hi, Bool.and_comm]

theorem ofBool_getLsbD_eq_extractLsb' {w : Nat} (x : BitVec w) (i : Nat) : BitVec.ofBool (x.getLsbD i) = x.extractLsb' i 1 := by
  rw [BitVec.getLsbD_eq_extractLsb']
  generalize x.extractLsb' i 1 = bit
  revert bit
  decide

/-- SPADMAP's aperture bit and count are the low nine bits of `b`. -/
theorem spadmap_fields_append (b : PortB) : BitVec.ofBool (b.getLsbD 8) ++ b.extractLsb' 0 8 = b.extractLsb' 0 9 := by
  rw [ofBool_getLsbD_eq_extractLsb']
  exact extractLsb'_append_extractLsb'_byte b 0 1

theorem one_append_low_of_reserved : ∀ op : OpBits, 8 ≤ op.toNat → 1#1 ++ op.extractLsb' 0 3 = op := by
  decide

theorem encodeCommand_decode (c : Command) :
    encodeCommand (decode c) = { op := c.op, a := c.a &&& readsA (decode c), b := c.b &&& readsB (decode c) } := by
  have noneA : c.a &&& 0 = 0 := BitVec.and_zero
  have noneB : c.b &&& 0 = 0 := BitVec.and_zero
  have low8 : (c.a.extractLsb' 0 8).setWidth 48 = c.a &&& 0xFF := setWidth_extractLsb'_eq_and (by decide)
  have low16 : (c.a.extractLsb' 0 16).setWidth 48 = c.a &&& 0xFFFF := setWidth_extractLsb'_eq_and (by decide)
  have low32 : (c.a.extractLsb' 0 32).setWidth 48 = c.a &&& 0xFFFFFFFF := setWidth_extractLsb'_eq_and (by decide)
  have low9 : (c.b.extractLsb' 0 9).setWidth 16 = c.b &&& 0x1FF := setWidth_extractLsb'_eq_and (by decide)
  have wholeA : c.a &&& 0xFFFFFFFFFFFF = c.a := BitVec.and_allOnes
  have wholeB : c.b &&& 0xFFFF = c.b := BitVec.and_allOnes
  obtain ⟨hop, h⟩ | ⟨hop, h⟩ | ⟨hop, h⟩ | ⟨hop, h⟩ | ⟨hop, h⟩ | ⟨hop, h⟩ | ⟨hop, h⟩ | ⟨hop, h⟩ | ⟨hop, h⟩ :=
    decode_cases c <;> rw [h] <;> simp only [encodeCommand, readsA, readsB, noneA, noneB]
  · rw [hop]
  · rw [hop, low16]
  · rw [hop, low32]
  · rw [hop, low32, wholeB]
  · rw [hop, low32, wholeB]
  · rw [hop, low8]
  · rw [hop, low8]
  · rw [hop, wholeA, spadmap_fields_append, low9]
  · rw [one_append_low_of_reserved c.op hop]

theorem commandOfWord_commandToWord (c : Command) : commandOfWord (commandToWord c) = c := by
  have ha : (commandToWord c).extractLsb' 4 48 = c.a :=
    (BitVec.extractLsb'_append_eq_of_le (Nat.le_refl 4)).trans BitVec.extractLsb'_append_eq_right
  have hb : (commandToWord c).extractLsb' 52 16 = c.b :=
    (BitVec.extractLsb'_append_eq_of_le (by decide)).trans BitVec.extractLsb'_append_eq_left
  simp only [commandOfWord, Laws.OpField.op_of_word, ha, hb]

theorem commandToWord_commandOfWord (w : CommandWord) : commandToWord (commandOfWord w) = w := by
  have hba : w.extractLsb' 52 16 ++ w.extractLsb' 4 48 = w.extractLsb' 4 64 :=
    BitVec.extractLsb'_append_extractLsb'_eq_extractLsb' rfl
  have hword : w.extractLsb' 4 64 ++ w.extractLsb' 0 4 = w.extractLsb' 0 68 :=
    BitVec.extractLsb'_append_extractLsb'_eq_extractLsb' rfl
  rw [commandToWord, commandOfWord, hba, hword, BitVec.extractLsb'_eq_self]

/-- Settles O37: each field the decoder takes is what its port holds under the read mask, and the word's three slices join. -/
theorem encodeOfDecode : Obligations.EncodeOfDecode :=
  ⟨encodeCommand_decode, commandOfWord_commandToWord, commandToWord_commandOfWord⟩

/-! ## Reserved operations (30_encoding.md R54) -/

theorem eval_decode_of_reserved {c : Command} (h : c.op = 0x0 ∨ 0x8 ≤ c.op.toNat) : eval (decode c) = illegalOutputs := by
  obtain h | h := h
  · rw [decode_eq_reserved0 h]; rfl
  · rw [decode_eq_reserved8F h]; rfl

/-- Settles O29: every reserved op evaluates to the one record of illegal outputs, whose flag is no value's. -/
theorem reservedOpsDriveIllegal : Obligations.ReservedOpsDriveIllegal := by
  refine ⟨fun c s hop => ⟨?_, ?_⟩, exec_eq_next .reserved0, fun low => exec_eq_next (.reserved8F low)⟩
  · rw [exec_eq_next, eval_decode_of_reserved hop]; rfl
  · rw [useCommand, eval_decode_of_reserved hop]; rfl

/-! ## Result fields (30_encoding.md R53) -/

theorem toNat_ofNat_lt {w n bound : Nat} (h : n < bound) : (BitVec.ofNat w n).toNat < bound :=
  (Nat.mod_le n (2 ^ w)).trans_lt h

/-- A flag that is raised alone leaves every other flag 0. -/
theorem raiseIf_and_eq_zero {condition : Bool} {c : Cause} {others : Flags} (h : raise c &&& others = 0) :
    raiseIf condition c &&& others = 0 := by
  cases condition
  · exact BitVec.zero_and
  · exact h

theorem overflowFlag_and_others (n : Nat) : overflowFlag n &&& 0b1101 = 0 :=
  raiseIf_and_eq_zero (by decide)

theorem resultY_lt (n : Nat) : (resultY n).toNat < 2 ^ 32 := by
  rw [resultY_toNat]
  exact Nat.mod_lt n (by decide)

/-- A compressed count fits two bytes: of a clamped count, at most eight shifts are made (40_timeout.md R78). -/
theorem compressCount_lt (m : Nat) : compressCount m < 2 ^ 16 := by
  unfold compressCount
  split
  · decide
  · obtain ⟨k, hloop, hle, hgt⟩ := compressLoop_clamped m
    have hk : k ≤ 8 := by
      by_contra hk
      have := hgt 8 (by omega)
      omega
    simp only [Config.tmoClamp, hloop]
    refine Nat.or_lt_two_pow ?_ (by omega)
    rw [Nat.shiftLeft_eq]
    omega

/-- A divisor that is not 0 is more than 1000, so the count is no larger than the microseconds (41_clock_conversion.md R96). -/
theorem mclkExact_lt {u p : Nat} (hu : u < 2 ^ 32) (hp : macroPeriod p ≠ 0) : mclkExact u p < 2 ^ 32 := by
  have hq : 3813 ≤ macroPeriod p := macroPeriod_lower fun h => hp (by rw [h]; rfl)
  rw [mclkExact, Nat.div_lt_iff_lt_mul (by omega), Config.mpDiv]
  omega

theorem evalUs2mclk_unlisted (us : BitVec 32) (p : BitVec 16) :
    (evalUs2mclk us p).y.toNat < 2 ^ 32 ∧ (evalUs2mclk us p).z = 0 ∧ (evalUs2mclk us p).f &&& 0b0111 = 0 := by
  unfold evalUs2mclk
  split
  case isTrue => decide
  case isFalse hp => exact ⟨toNat_ofNat_lt (mclkExact_lt us.isLt hp), rfl, BitVec.zero_and⟩

theorem evalVcsel2pclk_y_lt (reg : BitVec 8) : (evalVcsel2pclk reg).y.toNat < 2 ^ 10 := by
  have := reg.isLt
  exact toNat_ofNat_lt (by omega)

theorem evalSpadinfo_y_lt (info : BitVec 8) : (evalSpadinfo info).y.toNat < 2 ^ 9 := by
  rw [evalSpadinfo, BitVec.toNat_setWidth_of_le (by decide)]
  exact BitVec.isLt _

theorem evalSpadinfo_y_bit7 (info : BitVec 8) : (evalSpadinfo info).y.getLsbD 7 = false := by
  rw [evalSpadinfo, BitVec.getLsbD_setWidth, BitVec.getLsbD_append, BitVec.getLsbD_append]
  simp

theorem illegalOutputs_unlisted : illegalOutputs.y = 0 ∧ illegalOutputs.z = 0 ∧ illegalOutputs.f &&& 0b1110 = 0 := by
  decide

/-- Settles O31, row by row: a bound on each result, and one flag at most that can be raised. -/
theorem unlistedOutputBitsAreZero : Obligations.UnlistedOutputBitsAreZero :=
  ⟨fun raw => ⟨resultY_lt (tmoExact raw), rfl, overflowFlag_and_others (tmoExact raw)⟩,
    fun m => ⟨toNat_ofNat_lt (compressCount_lt m.toNat), rfl, raiseIf_and_eq_zero (by decide)⟩,
    fun m p => ⟨resultY_lt (usExact m.toNat p.toNat), rfl, overflowFlag_and_others (usExact m.toNat p.toNat)⟩,
    evalUs2mclk_unlisted,
    fun reg => ⟨evalVcsel2pclk_y_lt reg, rfl, rfl⟩,
    fun info => ⟨evalSpadinfo_y_lt info, evalSpadinfo_y_bit7 info, rfl, rfl⟩,
    fun _ _ _ => rfl,
    illegalOutputs_unlisted,
    fun _ => illegalOutputs_unlisted⟩

end Sys2Proof.Machine
end

section
/-! PROOFS. 30_encoding.md R56: when an assembler line assembles and what its command decodes to (O39). -/

namespace Sys2Proof.Machine

/-! ## Which lines assemble -/

theorem any_const {α : Type} (o : Option α) (b : Bool) : (o.any fun _ => b) = (o.isSome && b) := by
  cases o <;> rfl

theorem isSome_operandBits (env : List Nat) (w : Nat) (v : AsmOperand) : (operandBits env w v).isSome = v.fits env w := by
  unfold operandBits AsmOperand.fits
  cases v.value env with
  | none => rfl
  | some n => by_cases h : n < 2 ^ w <;> simp [h]

theorem isSome_fieldBits (env : List Nat) (w : Nat) (x : Option AsmOperand) : (fieldBits env w x).isSome = fieldFits env w x := by
  cases x with
  | none => rfl
  | some v => exact isSome_operandBits env w v

theorem isSome_mapBits (env : List Nat) (m : Option AsmMap) : (mapBits env m).isSome = mapFits env m := by
  match m with
  | none => rfl
  | some (.word v) => exact isSome_operandBits env 48 v
  | some (.bytes b0 b1 b2 b3 b4 b5) =>
    simp [mapBits, mapFits, Option.isSome_bind, any_const, isSome_operandBits, Bool.and_assoc]

/-- A line assembles when every one of its fields does. -/
theorem isSome_assemble (env : List Nat) (l : AsmLine) : (assemble env l).isSome = l.wellFormed env := by
  cases l with
  | tmo2mclk | mclk2tmo | vcsel2pclk | spadinfo => simp [assemble, AsmLine.wellFormed, isSome_fieldBits]
  | mclk2us | us2mclk => simp [assemble, AsmLine.wellFormed, Option.isSome_bind, any_const, isSome_fieldBits]
  | spadmap =>
    simp [assemble, AsmLine.wellFormed, Option.isSome_bind, any_const, isSome_fieldBits, isSome_mapBits, Bool.and_assoc]
  | spadmapPacked =>
    simp [assemble, AsmLine.wellFormed, Option.isSome_bind, any_const, isSome_operandBits, isSome_mapBits]

/-! ## The values of the fields -/

theorem operandBits_eq_some {env : List Nat} {w n : Nat} {v : AsmOperand} (h : AsmOperandIs env v n) (hn : n < 2 ^ w) :
    operandBits env w v = some (BitVec.ofNat w n) := by
  have hv : v.value env = some n := by
    obtain rfl | ⟨k, rfl, hk⟩ := h
    · rfl
    · exact hk
  simp [operandBits, AsmOperand.fits, hv, hn]

theorem fieldBits_eq_some {env : List Nat} {w n : Nat} {x : Option AsmOperand} (h : AsmFieldIs env x n) (hn : n < 2 ^ w) :
    fieldBits env w x = some (BitVec.ofNat w n) := by
  obtain ⟨rfl, rfl⟩ | ⟨v, rfl, hv⟩ := h
  · rfl
  · exact operandBits_eq_some hv hn

theorem mapOfWire_toNat (b0 b1 b2 b3 b4 b5 : Byte) : (mapOfWire b0 b1 b2 b3 b4 b5).toNat =
    b0.toNat + 2 ^ 8 * b1.toNat + 2 ^ 16 * b2.toNat + 2 ^ 24 * b3.toNat + 2 ^ 32 * b4.toNat + 2 ^ 40 * b5.toNat := by
  simp only [mapOfWire, toNat_append_byte]
  omega

/-- The map of six numbers that fit a byte; the topmost needs no bound, since the map cuts it off. -/
theorem mapOfWire_ofNat {b0 b1 b2 b3 b4 : Nat} (b5 : Nat)
    (h0 : b0 < 256) (h1 : b1 < 256) (h2 : b2 < 256) (h3 : b3 < 256) (h4 : b4 < 256) :
    mapOfWire (BitVec.ofNat 8 b0) (BitVec.ofNat 8 b1) (BitVec.ofNat 8 b2) (BitVec.ofNat 8 b3) (BitVec.ofNat 8 b4)
        (BitVec.ofNat 8 b5) =
      BitVec.ofNat 48 (b0 + 2 ^ 8 * b1 + 2 ^ 16 * b2 + 2 ^ 24 * b3 + 2 ^ 32 * b4 + 2 ^ 40 * b5) := by
  apply BitVec.eq_of_toNat_eq
  simp only [mapOfWire_toNat, BitVec.toNat_ofNat]
  omega

theorem mapBits_bytes {env : List Nat} {v0 v1 v2 v3 v4 v5 : AsmOperand} {b0 b1 b2 b3 b4 b5 : Byte}
    (h0 : operandBits env 8 v0 = some b0) (h1 : operandBits env 8 v1 = some b1) (h2 : operandBits env 8 v2 = some b2)
    (h3 : operandBits env 8 v3 = some b3) (h4 : operandBits env 8 v4 = some b4) (h5 : operandBits env 8 v5 = some b5) :
    mapBits env (some (.bytes v0 v1 v2 v3 v4 v5)) = some (mapOfWire b0 b1 b2 b3 b4 b5) := by
  simp only [mapBits, h0, h1, h2, h3, h4, h5]
  rfl

theorem mapBits_eq_some {env : List Nat} {m : Option AsmMap} {a : Nat} (h : AsmMapIs env m a) (ha : a < 2 ^ 48) :
    mapBits env m = some (BitVec.ofNat 48 a) := by
  obtain ⟨rfl, rfl⟩ | ⟨v, rfl, hv⟩ | ⟨v0, v1, v2, v3, v4, v5, b0, b1, b2, b3, b4, b5, rfl,
    ⟨h0, l0⟩, ⟨h1, l1⟩, ⟨h2, l2⟩, ⟨h3, l3⟩, ⟨h4, l4⟩, ⟨h5, l5⟩, rfl⟩ := h
  · rfl
  · exact operandBits_eq_some hv ha
  · rw [← mapOfWire_ofNat b5 l0 l1 l2 l3 l4]
    exact mapBits_bytes (operandBits_eq_some h0 l0) (operandBits_eq_some h1 l1) (operandBits_eq_some h2 l2)
      (operandBits_eq_some h3 l3) (operandBits_eq_some h4 l4) (operandBits_eq_some h5 l5)

/-! ## What an assembled command decodes to -/

theorem decode_spadmap (m : PortA) (b : PortB) :
    decode { op := 7, a := m, b := b } = .spadmap m (b.extractLsb' 0 8) (b.getLsbD 8) := rfl

/-- SPADMAP's fields come back out of `b`. -/
theorem decode_encodeCommand_spadmap (m : PortA) (count : BitVec 8) (ap : Bool) :
    decode (encodeCommand (.spadmap m count ap)) = .spadmap m count ap := by
  have hcount : ((BitVec.ofBool ap ++ count).setWidth 16).extractLsb' 0 8 = count := by
    rw [BitVec.extractLsb'_setWidth_of_le (by decide)]
    exact extractLsb'_zero_append_byte (BitVec.ofBool ap) count
  have hap : ((BitVec.ofBool ap ++ count).setWidth 16).getLsbD 8 = ap := by
    rw [BitVec.getLsbD_setWidth, BitVec.getLsbD_append]
    simp
  rw [encodeCommand, decode_spadmap, hcount, hap]

theorem decode_encodeCommand (i : Instr) : decode (encodeCommand i) = i := by
  cases i with
  | tmo2mclk | mclk2tmo | mclk2us | us2mclk | vcsel2pclk | spadinfo =>
    simp [encodeCommand, decode, BitVec.extractLsb'_setWidth_of_le]
  | spadmap m count ap => exact decode_encodeCommand_spadmap m count ap
  | reserved0 => rfl
  | reserved8F low => revert low; decide

/-- The packed line's operand is the whole of `b`: its low byte is the count, the bit above it the aperture flag. -/
theorem decode_spadmapPacked (m : PortA) (n : Nat) :
    decode { op := 7, a := m, b := BitVec.ofNat 16 n } = .spadmap m (BitVec.ofNat 8 n) (decide (n / 256 % 2 = 1)) := by
  have hcount : (BitVec.ofNat 16 n).extractLsb' 0 8 = BitVec.ofNat 8 n := by
    rw [← BitVec.setWidth_eq_extractLsb' (by decide), BitVec.setWidth_ofNat_of_le (by decide)]
  have hap : (BitVec.ofNat 16 n).getLsbD 8 = decide (n / 256 % 2 = 1) := by
    rw [BitVec.getLsbD_ofNat, Nat.testBit_eq_decide_div_mod_eq]
    rfl
  rw [decode_spadmap, hcount, hap]

theorem ofNat_one_beq_one {t : Nat} (h : t < 2) : (BitVec.ofNat 1 t == 1#1) = decide (t = 1) := by
  interval_cases t <;> rfl

/-- Settles O39: a line assembles when its fields do, to the encoding of its operation, which decodes back; the packed line's
command holds its operand as it is. -/
theorem assemblerLinesDecode : Obligations.AssemblerLinesDecode := by
  refine ⟨fun env l => ?_, fun env x n hx hn => ?_, fun env x n hx hn => ?_, fun env x n y k hx hn hy hk => ?_,
    fun env x n y k hx hn hy hk => ?_, fun env x n hx hn => ?_, fun env x n hx hn => ?_,
    fun env m a x n y t hm ha hx hn hy ht => ?_, fun env m a v n hm ha hv hn => ?_⟩
  · rw [← Option.isSome_iff_exists, isSome_assemble]
  · simp [assemble, fieldBits_eq_some hx hn, decode_encodeCommand]
  · simp [assemble, fieldBits_eq_some hx hn, decode_encodeCommand]
  · simp [assemble, fieldBits_eq_some hx hn, fieldBits_eq_some hy hk, decode_encodeCommand]
  · simp [assemble, fieldBits_eq_some hx hn, fieldBits_eq_some hy hk, decode_encodeCommand]
  · simp [assemble, fieldBits_eq_some hx hn, decode_encodeCommand]
  · simp [assemble, fieldBits_eq_some hx hn, decode_encodeCommand]
  · have hap : fieldBits env 1 y = some (BitVec.ofNat 1 t) := fieldBits_eq_some hy ht
    simp [assemble, mapBits_eq_some hm ha, fieldBits_eq_some hx hn, hap, decode_encodeCommand, ofNat_one_beq_one ht]
  · simp only [assemble, mapBits_eq_some hm ha, operandBits_eq_some hv hn]
    exact congrArg some (decode_spadmapPacked (BitVec.ofNat 48 a) n)

end Sys2Proof.Machine
end

section
/-! PROOFS. 40_timeout.md: expanding a timeout pair (O1 to O4), compressing a count (O5 to O7), and the round trip (O8 to O10). -/

namespace Sys2Proof.Machine

/-! ## The exact value of a pair (40_timeout.md R70, R71) -/

theorem pairLsb_toNat (raw : BitVec 16) : (pairLsb raw).toNat = raw.toNat % 256 := by
  simp [pairLsb]

theorem pairMsb_toNat (raw : BitVec 16) : (pairMsb raw).toNat = raw.toNat / 256 := by
  have := raw.isLt
  simp only [pairMsb, BitVec.extractLsb'_toNat, Nat.shiftRight_eq_div_pow]
  omega

theorem tmoExact_ne_zero (raw : BitVec 16) : tmoExact raw ≠ 0 := Nat.succ_ne_zero _

theorem tmoExact_eq (raw : BitVec 16) : tmoExact raw = raw.toNat % 256 * 2 ^ (raw.toNat / 256) + 1 := by
  rw [tmoExact, pairLsb_toNat, pairMsb_toNat]

/-- A shifted byte is a byte or even, so its low 32 bits are never all ones and adding 1 to them does not carry. -/
theorem byte_mul_two_pow_mod_add_one_lt {lsb : Nat} (msb : Nat) (h : lsb < 256) : lsb * 2 ^ msb % 2 ^ 32 + 1 < 2 ^ 32 := by
  cases msb with
  | zero => omega
  | succ k => rw [pow_succ, ← Nat.mul_assoc]; omega

theorem tmoExact_mod (raw : BitVec 16) :
    tmoExact raw % 2 ^ 32 = raw.toNat % 256 * 2 ^ (raw.toNat / 256) % 2 ^ 32 + 1 := by
  have := byte_mul_two_pow_mod_add_one_lt (raw.toNat / 256) (Nat.mod_lt raw.toNat (by decide))
  rw [tmoExact_eq]
  omega

/-- The increment does not decide the overflow. -/
theorem overflows_iff (raw : BitVec 16) : 2 ^ 32 ≤ tmoExact raw ↔ 2 ^ 32 ≤ raw.toNat % 256 * 2 ^ (raw.toNat / 256) := by
  have := byte_mul_two_pow_mod_add_one_lt (raw.toNat / 256) (Nat.mod_lt raw.toNat (by decide))
  rw [tmoExact_eq]
  omega

theorem flagSet_overflowFlag (n : Nat) : flagSet (overflowFlag n) .ovf = decide (2 ^ 32 ≤ n) := by
  rw [overflowFlag_eq]
  by_cases h : 2 ^ 32 ≤ n
  · rw [if_pos h, decide_eq_true h]; rfl
  · rw [if_neg h, decide_eq_false h]; rfl

theorem flagSet_tmo2mclk (raw : BitVec 16) : flagSet (eval (.tmo2mclk raw)).f .ovf = decide (2 ^ 32 ≤ tmoExact raw) :=
  flagSet_overflowFlag (tmoExact raw)

theorem eval_tmo2mclk_y_toNat (raw : BitVec 16) : (eval (.tmo2mclk raw)).y.toNat = tmoExact raw % 2 ^ 32 :=
  resultY_toNat (tmoExact raw)

theorem expanded_toNat (raw : BitVec 16) : (expanded raw).toNat = tmoExact raw % 2 ^ 32 := by
  rw [expanded, BitVec.toNat_setWidth, eval_tmo2mclk_y_toNat, Nat.mod_mod]

theorem decode_eq_tmo2mclk {c : Command} (h : c.op = 0x1) : decode c = .tmo2mclk (c.a.extractLsb' 0 16) := by
  simp [decode, h]

/-- Settles O1: the outputs are the exact value's low 32 bits and its overflow flag. -/
theorem tmo2mclkExpandsPair : Obligations.Tmo2mclkExpandsPair := by
  refine ⟨fun raw s => ?_, fun c => decode_eq_tmo2mclk⟩
  rw [exec_eq_next, eval, evalTmo2mclk, overflowFlag_eq, tmoExact_eq]
  rfl

/-! ## The pairs that overflow (40_timeout.md R71) -/

/-- The pair of two bytes given as numbers. -/
theorem pair_toNat {msb lsb : Nat} (hmsb : msb < 256) (hlsb : lsb < 256) :
    (BitVec.ofNat 8 msb ++ BitVec.ofNat 8 lsb).toNat = msb * 256 + lsb := by
  rw [toNat_append_byte, BitVec.toNat_ofNat, BitVec.toNat_ofNat, Nat.mod_eq_of_lt hmsb, Nat.mod_eq_of_lt hlsb]

/-- Counting from a bound on; both counts of pairs below have this form once the exponent is fixed. -/
theorem countP_range_of_iff_le {p : Nat → Bool} {t n : Nat} (h : ∀ i < n, p i = true ↔ t ≤ i) :
    (List.range n).countP p = n - t := by
  induction n with
  | zero => simp
  | succ n ih =>
    rw [List.range_succ, List.countP_append, ih fun i hi => h i (by omega), List.countP_singleton]
    simp only [h n (by omega)]
    split <;> omega

/-- With exponent `msb`, a pair overflows exactly when its mantissa exceeds `(2^32 - 1) / 2^msb`. -/
theorem overflows_pair_iff {msb lsb : Nat} (hmsb : msb < 256) (hlsb : lsb < 256) :
    2 ^ 32 ≤ tmoExact (BitVec.ofNat 8 msb ++ BitVec.ofNat 8 lsb) ↔ (2 ^ 32 - 1) / 2 ^ msb + 1 ≤ lsb := by
  have hm : (msb * 256 + lsb) / 256 = msb := by omega
  have hl : (msb * 256 + lsb) % 256 = lsb := by omega
  rw [overflows_iff, pair_toNat hmsb hlsb, hm, hl, Nat.add_one_le_iff, Nat.div_lt_iff_lt_mul (Nat.two_pow_pos msb)]
  omega

theorem countP_overflows {msb : Nat} (hmsb : msb < 256) :
    ((List.range 256).countP fun lsb => flagSet (eval (.tmo2mclk (BitVec.ofNat 8 msb ++ BitVec.ofNat 8 lsb))).f .ovf) =
      256 - ((2 ^ 32 - 1) / 2 ^ msb + 1) := by
  refine countP_range_of_iff_le fun lsb hlsb => ?_
  rw [flagSet_tmo2mclk, decide_eq_true_iff, overflows_pair_iff hmsb hlsb]

/-- Settles O2: the increment does not decide the overflow; and with the exponent fixed the mantissas that overflow are those
above one bound, so the count is a sum over the exponents alone. -/
theorem tmo2mclkOverflowsExactly : Obligations.Tmo2mclkOverflowsExactly := by
  refine ⟨fun raw => ?_, ?_⟩
  · simp only [flagSet_tmo2mclk, decide_eq_true_iff, decide_eq_false_iff_not, eval_tmo2mclk_y_toNat, ← tmoExact_eq]
    refine ⟨trivial, ?_, fun hmsb => ?_, fun h => Nat.mod_eq_of_lt (by omega)⟩
    · rw [overflows_iff]
      refine ⟨fun h => ⟨fun hlsb => ?_, h⟩, And.right⟩
      rw [hlsb] at h
      omega
    · rw [tmoExact_eq, hmsb]
      omega
  · rw [List.map_congr_left fun msb hmsb => countP_overflows (List.mem_range.1 hmsb)]
    decide +kernel

/-! ## The barrel shifter (40_timeout.md R72, R73) -/

theorem shiftedLsb_toNat (raw : BitVec 16) : ((pairLsb raw).setWidth 32 <<< (pairMsb raw).toNat).toNat =
    raw.toNat % 256 * 2 ^ (raw.toNat / 256) % 2 ^ 32 := by
  rw [BitVec.toNat_shiftLeft, BitVec.toNat_setWidth_of_le (by decide), Nat.shiftLeft_eq, pairLsb_toNat, pairMsb_toNat]

theorem shiftedLsb_toNat_add_one_lt (raw : BitVec 16) :
    ((pairLsb raw).setWidth 32 <<< (pairMsb raw).toNat).toNat + 1 < 2 ^ 32 := by
  rw [shiftedLsb_toNat]
  exact byte_mul_two_pow_mod_add_one_lt _ (Nat.mod_lt _ (by decide))

theorem tencShifterY_toNat (raw : BitVec 16) : (tencShifterY raw).toNat = tmoExact raw % 2 ^ 32 := by
  rw [tencShifterY, BitVec.toNat_add_of_lt (shiftedLsb_toNat_add_one_lt raw), shiftedLsb_toNat, tmoExact_mod]
  rfl

/-- With a mantissa that is not 0, `msb >= 32` already makes the shifted value overflow. -/
theorem tencShifterOvf_eq (raw : BitVec 16) : tencShifterOvf raw = decide (2 ^ 32 ≤ tmoExact raw) := by
  have hzero : pairLsb raw = 0 ↔ raw.toNat % 256 = 0 := by rw [← pairLsb_toNat, ← BitVec.toNat_inj]; rfl
  rw [Bool.eq_iff_iff, decide_eq_true_iff, overflows_iff]
  simp only [tencShifterOvf, Bool.and_eq_true, Bool.or_eq_true, bne_iff_ne, decide_eq_true_iff, ne_eq, hzero,
    Nat.shiftLeft_eq, pairLsb_toNat, pairMsb_toNat]
  refine ⟨?_, fun h => ⟨fun hlsb => ?_, .inr h⟩⟩
  · rintro ⟨hlsb, hmsb | h⟩
    · exact (Nat.pow_le_pow_right (by decide) hmsb).trans (Nat.le_mul_of_pos_left _ (Nat.pos_of_ne_zero hlsb))
    · exact h
  · rw [hlsb] at h
    omega

/-- Settles O3: shifter and incrementer compute the exact value modulo 2^32, because the increment never carries. -/
theorem tencShifterEqualsExpansion : Obligations.TencShifterEqualsExpansion := by
  refine fun raw => ⟨?_, ?_, fun h => BitVec.shiftLeft_eq_zero h, fun h => ?_, shiftedLsb_toNat_add_one_lt raw⟩
  · apply BitVec.eq_of_toNat_eq
    rw [eval_tmo2mclk_y_toNat, BitVec.toNat_setWidth_of_le (by decide), tencShifterY_toNat]
  · rw [flagSet_tmo2mclk, tencShifterOvf_eq]
  · rw [BitVec.getLsbD_shiftLeft]
    simp [Nat.lt_of_lt_of_le Nat.zero_lt_one h]

theorem tmoExact_odd {raw : BitVec 16} (h : 1 ≤ raw.toNat / 256) : tmoExact raw % 2 = 1 := by
  obtain ⟨k, hk⟩ := Nat.exists_eq_add_of_le' h
  rw [tmoExact_eq, hk, pow_succ, ← Nat.mul_assoc]
  omega

/-- Settles O4: the low 32 bits are the shifted byte's plus 1, with no carry. -/
theorem tmo2mclkNeverYieldsZero : Obligations.Tmo2mclkNeverYieldsZero := by
  refine fun raw => ⟨?_, ?_, tmoExact_odd, fun h => ?_⟩
  · rw [expanded_toNat, tmoExact_mod]
    omega
  · rw [tmoExact_eq]
    omega
  · rw [tmoExact_eq, h]
    omega

/-! ## The least shift that fits a byte (40_timeout.md R75, R77) -/

theorem bitlen_le_iff (v n : Nat) : bitlen v ≤ n ↔ v < 2 ^ n := by
  unfold bitlen
  split
  case isTrue h => simp [h]
  case isFalse h => rw [Nat.add_one_le_iff, Nat.log2_lt h]

/-- The shift of the leading-one detector, `max(0, bitlen(v) - 8)` (40_timeout.md R77); `tdecShifter_eq` ties it to the model. -/
def byteShift (v : Nat) : Nat := bitlen v - 8

/-- The shifts that make `v` fit a byte are those from `byteShift v` on. -/
theorem byteShift_fits_iff (v k : Nat) : v / 2 ^ k ≤ 255 ↔ byteShift v ≤ k := by
  rw [byteShift, Nat.sub_le_iff_le_add, bitlen_le_iff, ← Nat.lt_add_one_iff, Nat.div_lt_iff_lt_mul (Nat.two_pow_pos k), pow_add]
  omega

theorem byteShift_fits (v : Nat) : v / 2 ^ byteShift v ≤ 255 := (byteShift_fits_iff v _).2 (Nat.le_refl _)

theorem lt_div_of_lt_byteShift {v k : Nat} (h : k < byteShift v) : 255 < v / 2 ^ k := by
  rw [← Nat.not_le, byteShift_fits_iff]
  omega

/-- A mantissa that took a shift has its top bit set. -/
theorem le_div_of_byteShift_pos {v : Nat} (h : 1 ≤ byteShift v) : 0x80 ≤ v / 2 ^ byteShift v := by
  obtain ⟨k, hk⟩ := Nat.exists_eq_add_of_le' h
  have hlast : 255 < v / 2 ^ k := lt_div_of_lt_byteShift (by omega)
  rw [hk, pow_succ, ← Nat.div_div_eq_div_mul]
  omega

theorem byteShift_le_eight {v : Nat} (h : v < 2 ^ 16) : byteShift v ≤ 8 := by
  rw [← byteShift_fits_iff]
  omega

theorem byteShift_eq_of_least {v k : Nat} (hfits : v / 2 ^ k ≤ 255) (hleast : ∀ j < k, 255 < v / 2 ^ j) : byteShift v = k := by
  have hle := (byteShift_fits_iff v k).1 hfits
  by_contra hne
  exact absurd (hleast (byteShift v) (by omega)) (Nat.not_lt.2 (byteShift_fits v))

theorem tdecShifter_eq (m : Nat) : tdecShifter m =
    ((min m 0xFFFF - 1) / 2 ^ byteShift (min m 0xFFFF - 1), byteShift (min m 0xFFFF - 1)) := by
  simp [tdecShifter, byteShift, Nat.shiftRight_eq_div_pow]

/-- The detector finds the shift at which the loop stops. -/
theorem compressLoop_eq_tdecShifter (m : Nat) : compressLoop 16 (min m 0xFFFF - 1) 0 = tdecShifter m := by
  obtain ⟨k, hloop, hfits, hleast⟩ := compressLoop_clamped m
  rw [hloop, tdecShifter_eq, byteShift_eq_of_least hfits hleast]

theorem tdecShifter_fst_le (m : Nat) : (tdecShifter m).1 ≤ 0xFF := by
  rw [tdecShifter_eq]
  exact byteShift_fits _

theorem tdecShifter_snd_le (m : Nat) : (tdecShifter m).2 ≤ 8 := by
  rw [tdecShifter_eq]
  exact byteShift_le_eight (by omega)

theorem compressCount_eq {m : Nat} (h : m ≠ 0) : compressCount m = (tdecShifter m).2 * 256 + (tdecShifter m).1 := by
  have hls : (tdecShifter m).1 < 2 ^ 8 := Nat.lt_add_one_iff.2 (tdecShifter_fst_le m)
  simp only [compressCount, if_neg h, Config.tmoClamp, compressLoop_eq_tdecShifter]
  rw [← Nat.shiftLeft_add_eq_or_of_lt hls, Nat.shiftLeft_eq]

theorem compressCount_div {m : Nat} (h : m ≠ 0) : compressCount m / 256 = (tdecShifter m).2 := by
  have := tdecShifter_fst_le m
  rw [compressCount_eq h]
  omega

theorem compressCount_mod {m : Nat} (h : m ≠ 0) : compressCount m % 256 = (tdecShifter m).1 := by
  have := tdecShifter_fst_le m
  rw [compressCount_eq h]
  omega

theorem eval_mclk2tmo_y (m : BitVec 32) : (eval (.mclk2tmo m)).y = BitVec.ofNat 48 (compressCount m.toNat) := rfl

theorem eval_mclk2tmo_y_toNat (m : BitVec 32) : (eval (.mclk2tmo m)).y.toNat = compressCount m.toNat :=
  Nat.mod_eq_of_lt ((compressCount_lt m.toNat).trans (by decide))

theorem compressed_toNat (m : BitVec 32) : (compressed m).toNat = compressCount m.toNat := by
  rw [compressed, BitVec.toNat_setWidth, eval_mclk2tmo_y_toNat, Nat.mod_eq_of_lt (compressCount_lt m.toNat)]

theorem decode_eq_mclk2tmo {c : Command} (h : c.op = 0x2) : decode c = .mclk2tmo (c.a.extractLsb' 0 32) := by
  simp [decode, h]

/-- The outputs of MCLK2TMO on a state, for a compressed count written out. -/
theorem exec_mclk2tmo {mclks : BitVec 32} {r : Nat} (s : State) (h : compressCount mclks.toNat = r) :
    exec (.mclk2tmo mclks) s =
      .next (s.driving (BitVec.ofNat 48 r) 0 (if 0xFFFF < mclks.toNat then 0x4 else 0x0)) := by
  subst h
  rw [exec_eq_next, eval, evalMclk2tmo, raiseIf]
  simp only [decide_eq_true_iff]
  rfl

/-- Settles O5: the shift is the least that fits, and the loop's pair is the shifter's (O6). -/
theorem mclk2tmoCompressesCount : Obligations.Mclk2tmoCompressesCount := by
  refine ⟨fun mclks s => ?_, fun c => decode_eq_mclk2tmo⟩
  by_cases hm : mclks.toNat = 0
  · exact ⟨0, 0, exec_mclk2tmo s (by rw [hm]; rfl), by decide, fun _ => ⟨rfl, rfl⟩, absurd hm⟩
  · refine ⟨_, _, exec_mclk2tmo s (compressCount_eq hm), tdecShifter_fst_le _, fun h => absurd h hm, fun _ => ?_⟩
    rw [tdecShifter_eq]
    exact ⟨rfl, fun k hk => lt_div_of_lt_byteShift hk⟩

/-- Settles O6: the loop and the detector stop at the same shift. -/
theorem tdecShifterEqualsLoop : Obligations.TdecShifterEqualsLoop := by
  intro m hm
  rw [eval_mclk2tmo_y, compressCount_eq (by omega)]
  exact ⟨rfl, tdecShifter_snd_le _, tdecShifter_fst_le _⟩

/-! ## Canonical pairs (40_timeout.md R78, R80) -/

theorem canonicalPair_iff (r : BitVec 16) :
    canonicalPair r = true ↔ r.toNat / 256 ≤ 8 ∧ (1 ≤ r.toNat / 256 → 0x80 ≤ r.toNat % 256) := by
  simp only [canonicalPair, Bool.or_eq_true, Bool.and_eq_true, decide_eq_true_iff]
  omega

theorem canonicalPair_compressed (m : BitVec 32) : canonicalPair (compressed m) = true := by
  rw [canonicalPair_iff, compressed_toNat]
  by_cases hm : m.toNat = 0
  · rw [hm]
    decide
  · rw [compressCount_div hm, compressCount_mod hm]
    refine ⟨tdecShifter_snd_le _, ?_⟩
    rw [tdecShifter_eq]
    exact le_div_of_byteShift_pos

/-- A mantissa that fits a byte, with its top bit set if it was shifted, is where the shifting of its value stops. -/
theorem byteShift_mul_two_pow {lsb msb : Nat} (hlsb : lsb ≤ 255) (hcanon : 1 ≤ msb → 0x80 ≤ lsb) :
    byteShift (lsb * 2 ^ msb) = msb := by
  have hfits : byteShift (lsb * 2 ^ msb) ≤ msb := by
    rwa [← byteShift_fits_iff, Nat.mul_div_cancel _ (Nat.two_pow_pos msb)]
  cases msb with
  | zero => omega
  | succ k =>
    have hleast : ¬byteShift (lsb * 2 ^ (k + 1)) ≤ k := by
      rw [← byteShift_fits_iff, pow_succ', ← Nat.mul_assoc, Nat.mul_div_cancel _ (Nat.two_pow_pos k)]
      omega
    omega

/-- A canonical pair's value is below the clamp. -/
theorem tmoExact_lt_of_canonical {r : BitVec 16} (h : canonicalPair r = true) : tmoExact r < 0xFFFF := by
  obtain ⟨hmsb, -⟩ := (canonicalPair_iff r).1 h
  have hvalue : r.toNat % 256 * 2 ^ (r.toNat / 256) ≤ 255 * 2 ^ 8 :=
    Nat.mul_le_mul (by omega) (Nat.pow_le_pow_right (by decide) hmsb)
  rw [tmoExact_eq]
  omega

theorem expanded_of_canonical {r : BitVec 16} (h : canonicalPair r = true) : (expanded r).toNat = tmoExact r := by
  have := tmoExact_lt_of_canonical h
  rw [expanded_toNat, Nat.mod_eq_of_lt (by omega)]

theorem compressed_expanded {r : BitVec 16} (h : canonicalPair r = true) : compressed (expanded r) = r := by
  have hlt := tmoExact_lt_of_canonical h
  obtain ⟨-, hcanon⟩ := (canonicalPair_iff r).1 h
  have hclamped : min (tmoExact r) 0xFFFF - 1 = r.toNat % 256 * 2 ^ (r.toNat / 256) := by
    rw [Nat.min_eq_left hlt.le, tmoExact_eq, Nat.add_sub_cancel]
  have hshifter : tdecShifter (tmoExact r) = (r.toNat % 256, r.toNat / 256) := by
    rw [tdecShifter_eq, hclamped, byteShift_mul_two_pow (by omega) hcanon, Nat.mul_div_cancel _ (Nat.two_pow_pos _)]
  apply BitVec.eq_of_toNat_eq
  rw [compressed_toNat, expanded_of_canonical h, compressCount_eq (tmoExact_ne_zero r), hshifter]
  exact Nat.div_add_mod' r.toNat 256

theorem exists_compressed_eq_iff (r : BitVec 16) : (∃ m, compressed m = r) ↔ canonicalPair r = true := by
  refine ⟨?_, fun h => ⟨_, compressed_expanded h⟩⟩
  rintro ⟨m, rfl⟩
  exact canonicalPair_compressed m

theorem compressed_of_clamp_le {m : BitVec 32} (h : 0xFFFF ≤ m.toNat) : compressed m = 0x08FF := by
  apply BitVec.eq_of_toNat_eq
  rw [compressed_toNat]
  obtain h | h := h.eq_or_lt
  · rw [← h]; decide
  · exact compressCount_of_clamp_lt h

/-- The least mantissa of a canonical pair with exponent `ms`, or 256 when that exponent has none. -/
def leastCanonicalMantissa (ms : Nat) : Nat := if ms = 0 then 0 else if ms ≤ 8 then 0x80 else 256

theorem canonicalPair_pair_iff {ms ls : Nat} (hms : ms < 256) (hls : ls < 256) :
    canonicalPair (BitVec.ofNat 8 ms ++ BitVec.ofNat 8 ls) = true ↔ leastCanonicalMantissa ms ≤ ls := by
  rw [canonicalPair_iff, pair_toNat hms hls, leastCanonicalMantissa]
  split
  · omega
  · split <;> omega

theorem countP_canonicalPair {ms : Nat} (hms : ms < 256) :
    ((List.range 256).countP fun ls => canonicalPair (BitVec.ofNat 8 ms ++ BitVec.ofNat 8 ls)) =
      256 - leastCanonicalMantissa ms :=
  countP_range_of_iff_le fun _ hls => canonicalPair_pair_iff hms hls

/-- A count whose pair has exponent 0 is compressed by the subtraction alone. -/
theorem compressCount_of_exponent_zero {m : Nat} (hm : m ≠ 0) (h : compressCount m / 256 = 0) :
    m ≤ 256 ∧ compressCount m % 256 = m - 1 := by
  have hfits := tdecShifter_fst_le m
  rw [compressCount_div hm] at h
  rw [compressCount_mod hm]
  simp only [tdecShifter_eq] at h hfits ⊢
  rw [h, pow_zero, Nat.div_one] at hfits ⊢
  omega

/-- Settles O7: what is compressed is canonical, and each canonical pair is what its own value is compressed to. -/
theorem mclk2tmoYieldsCanonicalPairs : Obligations.Mclk2tmoYieldsCanonicalPairs := by
  refine ⟨fun m => ?_, exists_compressed_eq_iff, compressed_of_clamp_le (by decide), ?_⟩
  · obtain ⟨hms, hls⟩ := (canonicalPair_iff _).1 (canonicalPair_compressed m)
    rw [compressed_toNat] at hms hls
    dsimp only
    rw [eval_mclk2tmo_y_toNat]
    refine ⟨?_, hms, ?_, by omega, hls, fun h => ?_⟩
    · apply BitVec.eq_of_toNat_eq
      rw [BitVec.toNat_setWidth_of_le (by decide), compressed_toNat, eval_mclk2tmo_y_toNat]
    · apply BitVec.eq_of_toNat_eq
      rw [BitVec.extractLsb'_toNat, eval_mclk2tmo_y_toNat, Nat.shiftRight_eq_div_pow, Nat.div_eq_of_lt (by omega)]
      rfl
    · by_cases hm : m.toNat = 0
      · exact .inr ⟨hm, by rw [hm]; rfl⟩
      · obtain ⟨hle, hmod⟩ := compressCount_of_exponent_zero hm h
        exact .inl ⟨by omega, hle, hmod⟩
  · rw [List.map_congr_left fun ms hms => countP_canonicalPair (List.mem_range.1 hms)]
    decide +kernel

/-- Settles O9, with the outputs of MCLK2TMO known to be canonical. -/
theorem canonicalPairsAreFixedPoints : Obligations.CanonicalPairsAreFixedPoints := by
  refine ⟨fun r => compressed_expanded, fun r => ?_, fun r h m hm => ?_⟩
  · rw [← Bool.not_eq_true, canonicalPair_iff]
    omega
  · rw [← hm, canonicalPair_compressed] at h
    exact absurd h (by decide)

/-! ## The round trip (40_timeout.md R79, R81) -/

theorem compressed_exponent {m : BitVec 32} (h0 : 1 ≤ m.toNat) (h1 : m.toNat ≤ 0xFFFF) :
    (compressed m).toNat / 256 = byteShift (m.toNat - 1) := by
  rw [compressed_toNat, compressCount_div (by omega), tdecShifter_eq, Nat.min_eq_left h1]

theorem compressed_mantissa {m : BitVec 32} (h0 : 1 ≤ m.toNat) (h1 : m.toNat ≤ 0xFFFF) :
    (compressed m).toNat % 256 = (m.toNat - 1) / 2 ^ byteShift (m.toNat - 1) := by
  rw [compressed_toNat, compressCount_mod (by omega), tdecShifter_eq, Nat.min_eq_left h1]

theorem expanded_compressed {m : BitVec 32} (h0 : 1 ≤ m.toNat) (h1 : m.toNat ≤ 0xFFFF) : (expanded (compressed m)).toNat =
    (m.toNat - 1) / 2 ^ byteShift (m.toNat - 1) * 2 ^ byteShift (m.toNat - 1) + 1 := by
  rw [expanded_of_canonical (canonicalPair_compressed m), tmoExact_eq, compressed_exponent h0 h1, compressed_mantissa h0 h1]

/-- What the round trip loses is the bits that were shifted out. -/
theorem expanded_compressed_add_lost {m : BitVec 32} (h0 : 1 ≤ m.toNat) (h1 : m.toNat ≤ 0xFFFF) :
    (expanded (compressed m)).toNat + (m.toNat - 1) % 2 ^ byteShift (m.toNat - 1) = m.toNat := by
  have := Nat.div_add_mod' (m.toNat - 1) (2 ^ byteShift (m.toNat - 1))
  rw [expanded_compressed h0 h1]
  omega

/-- Up to 256, nothing is shifted out but one zero bit. -/
theorem mod_two_pow_byteShift_eq_zero {v : Nat} (h : v ≤ 256) : v % 2 ^ byteShift v = 0 := by
  obtain rfl | hlt := h.eq_or_lt
  · decide
  · have hshift : byteShift v = 0 := by
      rw [← Nat.le_zero, ← byteShift_fits_iff, pow_zero, Nat.div_one]
      omega
    rw [hshift, pow_zero, Nat.mod_one]

/-- Settles O8: the loss is the remainder of `m - 1` by `2^ms`. -/
theorem timeoutRoundTripLosesLowBitsOnly : Obligations.TimeoutRoundTripLosesLowBitsOnly := by
  intro m h0 h1
  have hlost := expanded_compressed_add_lost h0 h1
  have hlt : (m.toNat - 1) % 2 ^ byteShift (m.toNat - 1) < 2 ^ byteShift (m.toNat - 1) :=
    Nat.mod_lt _ (Nat.two_pow_pos _)
  have hvalue := tmoExact_lt_of_canonical (canonicalPair_compressed m)
  simp only [compressed_exponent h0 h1]
  refine ⟨by omega, by omega, by omega, fun h257 => ?_, ?_⟩
  · have := mod_two_pow_byteShift_eq_zero (v := m.toNat - 1) (by omega)
    omega
  · exact (overflowFlag_eq _).trans (if_neg (by omega))

/-- Cutting a value to its eight leading bits is monotone: with unequal shifts, the smaller value lies below
`2^(8 + s)` and the larger one keeps its top bit. -/
theorem div_mul_two_pow_byteShift_mono {v w : Nat} (h : v ≤ w) :
    v / 2 ^ byteShift v * 2 ^ byteShift v ≤ w / 2 ^ byteShift w * 2 ^ byteShift w := by
  have hle : byteShift v ≤ byteShift w := by
    rw [← byteShift_fits_iff]
    exact (Nat.div_le_div_right h).trans (byteShift_fits w)
  obtain heq | hlt := hle.eq_or_lt
  · rw [heq]
    exact Nat.mul_le_mul_right _ (Nat.div_le_div_right h)
  · calc v / 2 ^ byteShift v * 2 ^ byteShift v
        ≤ 0x100 * 2 ^ byteShift v := Nat.mul_le_mul_right _ ((byteShift_fits v).trans (by decide))
      _ = 0x80 * 2 ^ (byteShift v + 1) := by rw [pow_succ]; omega
      _ ≤ 0x80 * 2 ^ byteShift w := Nat.mul_le_mul_left _ (Nat.pow_le_pow_right (by decide) hlt)
      _ ≤ w / 2 ^ byteShift w * 2 ^ byteShift w := Nat.mul_le_mul_right _ (le_div_of_byteShift_pos (by omega))

/-- Settles O10: the round trip cuts `m - 1` to its eight leading bits. -/
theorem timeoutRoundTripMonotone : Obligations.TimeoutRoundTripMonotone := by
  refine ⟨fun m n hm hmn hn => ?_, fun m => compressed_of_clamp_le, by decide⟩
  rw [expanded_compressed hm (hmn.trans hn), expanded_compressed (hm.trans hmn) hn]
  exact Nat.add_le_add_right (div_mul_two_pow_byteShift_mono (Nat.sub_le_sub_right hmn 1)) 1

end Sys2Proof.Machine
end

section
/-! PROOFS. 41_clock_conversion.md: the macro period (O11), MCLK2US (O12, O13), US2MCLK (O14, O15), VCSEL2PCLK (O16), and the two
conversions one after the other (O17 to O19). -/

namespace Sys2Proof.Machine

/-! ## The macro period (41_clock_conversion.md R90) -/

theorem macroPeriod_eq_zero_iff (p : Nat) : macroPeriod p = 0 ↔ p = 0 := by
  rw [macroPeriod_eq]
  omega

theorem macroPeriod_toNat_eq_zero_iff (p : BitVec 16) : macroPeriod p.toNat = 0 ↔ p = 0 := by
  rw [macroPeriod_eq_zero_iff]
  exact BitVec.toNat_inj (y := 0#16)

theorem macroPeriod_toNat_ne_zero {p : BitVec 16} (h : p ≠ 0) : macroPeriod p.toNat ≠ 0 :=
  mt (macroPeriod_toNat_eq_zero_iff p).1 h

theorem macroPeriod_toNat_lower {p : BitVec 16} (h : p ≠ 0) : 3813 ≤ macroPeriod p.toNat :=
  macroPeriod_lower fun h0 => h (BitVec.toNat_eq.2 h0)

/-- One more pulse adds more than three thousand nanoseconds, which the rounding cannot undo. -/
theorem macroPeriod_strictMono : StrictMono macroPeriod := by
  intro p q h
  rw [macroPeriod_eq, macroPeriod_eq]
  omega

theorem macroPeriod_toNat_lt (p : BitVec 16) : macroPeriod p.toNat < 2 ^ 28 := by
  have hp := p.isLt
  rw [macroPeriod_eq]
  omega

/-- Settles O11: the value is `3813120 * p` rounded to thousands. -/
theorem macroPeriodValues : Obligations.MacroPeriodValues :=
  ⟨fun _ => rfl, macroPeriod_eq_zero_iff, fun _ h => macroPeriod_lower (Nat.ne_of_gt h),
    fun _ _ h => macroPeriod_strictMono h, macroPeriod_toNat_lt, by decide⟩

/-! ## MCLK2US (41_clock_conversion.md R91, R92) -/

theorem decode_eq_mclk2us {c : Command} (h : c.op = 0x3) : decode c = .mclk2us (c.a.extractLsb' 0 32) c.b := by
  simp [decode, h]

theorem flagSet_mclk2us (m : BitVec 32) (p : BitVec 16) :
    flagSet (eval (.mclk2us m p)).f .ovf = decide (2 ^ 32 ≤ usExact m.toNat p.toNat) :=
  flagSet_overflowFlag (usExact m.toNat p.toNat)

theorem flagSet_mclk2us_eq_false_iff (m : BitVec 32) (p : BitVec 16) :
    flagSet (eval (.mclk2us m p)).f .ovf = false ↔ usExact m.toNat p.toNat < 2 ^ 32 := by
  rw [flagSet_mclk2us, decide_eq_false_iff_not, Nat.not_le]

theorem eval_mclk2us_y_toNat (m : BitVec 32) (p : BitVec 16) :
    (eval (.mclk2us m p)).y.toNat = usExact m.toNat p.toNat % 2 ^ 32 :=
  resultY_toNat (usExact m.toNat p.toNat)

theorem eval_mclk2us_y_toNat_of_fits {m : BitVec 32} {p : BitVec 16} (h : flagSet (eval (.mclk2us m p)).f .ovf = false) :
    (eval (.mclk2us m p)).y.toNat = usExact m.toNat p.toNat := by
  rw [eval_mclk2us_y_toNat, Nat.mod_eq_of_lt ((flagSet_mclk2us_eq_false_iff m p).1 h)]

/-- Settles O12: the outputs are the exact quotient's low 32 bits and its overflow flag. -/
theorem mclk2usConverts : Obligations.Mclk2usConverts := by
  refine ⟨fun m p s => ?_, fun c => decode_eq_mclk2us⟩
  rw [exec_eq_next, eval, evalMclk2us, overflowFlag_eq]
  rfl

/-- At one period the counts that overflow are those from a threshold on. -/
theorem flagSet_mclk2us_iff_of_macroPeriod {p : BitVec 16} {q : Nat} (hq : macroPeriod p.toNat = q) (m : BitVec 32) :
    flagSet (eval (.mclk2us m p)).f .ovf = true ↔ 2 ^ 32 * 1000 ≤ m.toNat * q + q / 2 := by
  rw [flagSet_mclk2us, decide_eq_true_iff, usExact, hq, Config.mpDiv, Nat.le_div_iff_mul_le (by decide)]

/-- Settles O13: the flag compares the exact quotient with `2^32`, and at the two periods that is a bound on the count. -/
theorem mclk2usOverflowsExactly : Obligations.Mclk2usOverflowsExactly := by
  refine ⟨fun m p => ⟨?_, eval_mclk2us_y_toNat_of_fits⟩, fun m => ?_, fun m => ?_⟩
  · rw [flagSet_mclk2us, decide_eq_true_iff]
    rfl
  · have hq : macroPeriod (14 : BitVec 16).toNat = 53384 := by decide
    rw [flagSet_mclk2us_iff_of_macroPeriod hq]
    omega
  · have hq : macroPeriod (512 : BitVec 16).toNat = 1952317 := by decide
    rw [flagSet_mclk2us_iff_of_macroPeriod hq]
    omega

/-! ## US2MCLK (41_clock_conversion.md R94 to R96) -/

theorem decode_eq_us2mclk {c : Command} (h : c.op = 0x4) : decode c = .us2mclk (c.a.extractLsb' 0 32) c.b := by
  simp [decode, h]

theorem eval_us2mclk_zero (u : BitVec 32) : eval (.us2mclk u 0) = { y := 0, z := 0, f := raise .dz } := by
  rw [eval, evalUs2mclk, if_pos ((macroPeriod_toNat_eq_zero_iff 0).2 rfl)]

theorem eval_us2mclk_of_ne_zero (u : BitVec 32) {p : BitVec 16} (hp : p ≠ 0) :
    eval (.us2mclk u p) = { y := BitVec.ofNat 48 (mclkExact u.toNat p.toNat), z := 0, f := 0 } :=
  if_neg (macroPeriod_toNat_ne_zero hp)

theorem eval_us2mclk_y_toNat (u : BitVec 32) {p : BitVec 16} (hp : p ≠ 0) :
    (eval (.us2mclk u p)).y.toNat = mclkExact u.toNat p.toNat := by
  have hlt := mclkExact_lt u.isLt (macroPeriod_toNat_ne_zero hp)
  rw [eval_us2mclk_of_ne_zero u hp]
  exact Nat.mod_eq_of_lt (hlt.trans (by decide))

theorem flagSet_zero (c : Cause) : flagSet 0 c = false := BitVec.getLsbD_zero

theorem flagSet_us2mclk_dz_iff (u : BitVec 32) (p : BitVec 16) : flagSet (eval (.us2mclk u p)).f .dz = true ↔ p = 0 := by
  by_cases hp : p = 0
  · subst hp
    rw [eval_us2mclk_zero]
    decide
  · rw [eval_us2mclk_of_ne_zero u hp, flagSet_zero]
    exact iff_of_false Bool.false_ne_true hp

theorem flagSet_us2mclk_ovf (u : BitVec 32) (p : BitVec 16) : flagSet (eval (.us2mclk u p)).f .ovf = false := by
  by_cases hp : p = 0
  · subst hp
    rw [eval_us2mclk_zero]
    decide
  · rw [eval_us2mclk_of_ne_zero u hp, flagSet_zero]

/-- Settles O14: the two outcomes are told apart by the macro period, which is 0 exactly when the operand is. -/
theorem us2mclkConverts : Obligations.Us2mclkConverts := by
  refine ⟨fun u p s => ⟨?_, macroPeriod_toNat_eq_zero_iff p, flagSet_us2mclk_dz_iff u p, ?_⟩, fun c => decode_eq_us2mclk⟩
  · rw [exec_eq_next]
    by_cases hp : p = 0
    · subst hp
      rw [eval_us2mclk_zero]
      exact congrArg _ (if_pos rfl).symm
    · rw [eval_us2mclk_of_ne_zero u hp]
      exact congrArg _ (if_neg (macroPeriod_toNat_ne_zero hp)).symm
  · rintro rfl
    rw [useCommand, eval_us2mclk_zero]
    rfl

/-- The smallest divisor, 3813, and the largest time bound the count. -/
theorem mclkExact_le {u p : Nat} (hu : u < 2 ^ 32) (hq : 3813 ≤ macroPeriod p) : mclkExact u p ≤ 1126401074 := by
  rw [mclkExact, Config.mpDiv, ← Nat.lt_succ_iff, Nat.div_lt_iff_lt_mul (by omega)]
  omega

/-- Settles O15: the exact count is small enough for `y`, and no US2MCLK outcome carries OVF. -/
theorem us2mclkNeverOverflows : Obligations.Us2mclkNeverOverflows := by
  refine ⟨fun u p => ⟨?_, flagSet_us2mclk_ovf u p, eval_us2mclk_y_toNat u⟩, by decide⟩
  by_cases hp : p = 0
  · subst hp
    rw [eval_us2mclk_zero]
    exact Nat.zero_le _
  · rw [eval_us2mclk_y_toNat u hp]
    exact mclkExact_le u.isLt (macroPeriod_toNat_lower hp)

/-! ## VCSEL2PCLK (41_clock_conversion.md R97) -/

theorem decode_eq_vcsel2pclk {c : Command} (h : c.op = 0x5) : decode c = .vcsel2pclk (c.a.extractLsb' 0 8) := by
  simp [decode, h]

theorem eval_vcsel2pclk_y_toNat (reg : BitVec 8) : (eval (.vcsel2pclk reg)).y.toNat = (reg.toNat + 1) * 2 := by
  have hreg := reg.isLt
  exact Nat.mod_eq_of_lt (by omega)

/-- A decoded period is nonzero as the 16-bit operand of a conversion. -/
theorem vcsel2pclk_period_ne_zero (reg : BitVec 8) : (eval (.vcsel2pclk reg)).y.setWidth 16 ≠ 0 := by
  have hreg := reg.isLt
  intro h
  have hzero : ((eval (.vcsel2pclk reg)).y.setWidth 16).toNat = 0 := congrArg BitVec.toNat h
  rw [BitVec.toNat_setWidth, eval_vcsel2pclk_y_toNat] at hzero
  omega

/-- Settles O16: the value is twice a number in 1 .. 256, so it is no zero period. -/
theorem vcsel2pclkDecodesPeriod : Obligations.Vcsel2pclkDecodesPeriod := by
  refine ⟨fun reg s => ⟨exec_eq_next (.vcsel2pclk reg) s, ?_⟩, fun c => decode_eq_vcsel2pclk⟩
  have hreg := reg.isLt
  have hdz : ∀ us, flagSet (eval (.us2mclk us ((eval (.vcsel2pclk reg)).y.setWidth 16))).f .dz = false := fun us =>
    Bool.eq_false_iff.2 (mt (flagSet_us2mclk_dz_iff us _).1 (vcsel2pclk_period_ne_zero reg))
  simp only [eval_vcsel2pclk_y_toNat]
  exact ⟨by omega, by omega, by omega, hdz⟩

/-! ## A count to microseconds and back (41_clock_conversion.md R99) -/

/-- The count comes back one too large in these cases only. -/
def RoundsUp (m p : Nat) : Prop := macroPeriod p % 2 = 0 ∧ (m * macroPeriod p + macroPeriod p / 2) % 1000 = 0

/-! With `x = m * q + q / 2` and `r = x % 1000`, the numerator of the way back is `m * q + (q / 2 + q / 2 - r)`. As `q` is above
1000, the bracket lies in `0 .. q`, and it is `q` exactly where `q` is even and `r` is 0. -/

theorem mclkExact_usExact_of_roundsUp {m p : Nat} (hq : 3813 ≤ macroPeriod p) (h : RoundsUp m p) :
    mclkExact (usExact m p) p = m + 1 := by
  unfold RoundsUp at h
  unfold mclkExact usExact Config.mpDiv
  generalize macroPeriod p = q at *
  have hone : (m + 1) * q = m * q + q := Nat.succ_mul m q
  have htwo : (m + 1 + 1) * q = m * q + q + q := by rw [Nat.succ_mul, hone]
  exact Nat.div_eq_of_lt_le (by omega) (by omega)

theorem mclkExact_usExact_of_not_roundsUp {m p : Nat} (hq : 3813 ≤ macroPeriod p) (h : ¬ RoundsUp m p) :
    mclkExact (usExact m p) p = m := by
  unfold RoundsUp at h
  unfold mclkExact usExact Config.mpDiv
  generalize macroPeriod p = q at *
  have hone : (m + 1) * q = m * q + q := Nat.succ_mul m q
  exact Nat.div_eq_of_lt_le (by omega) (by omega)

/-- What the composition of the two commands computes, where the first does not overflow. -/
theorem us2mclk_mclk2us_y_toNat {m : BitVec 32} {p : BitVec 16} (hp : p ≠ 0)
    (h : flagSet (eval (.mclk2us m p)).f .ovf = false) :
    (eval (.us2mclk ((eval (.mclk2us m p)).y.setWidth 32) p)).y.toNat = mclkExact (usExact m.toNat p.toNat) p.toNat := by
  have hfits := (flagSet_mclk2us_eq_false_iff m p).1 h
  rw [eval_us2mclk_y_toNat _ hp, BitVec.toNat_setWidth, eval_mclk2us_y_toNat_of_fits h, Nat.mod_eq_of_lt hfits]

/-- Settles O17: the composition is `mclkExact` of `usExact`, which is the count or one more. -/
theorem clockConversionInverse : Obligations.ClockConversionInverse := by
  intro m p hp hovf q d
  have hd : d = mclkExact (usExact m.toNat p.toNat) p.toNat := us2mclk_mclk2us_y_toNat hp hovf
  have hq : 3813 ≤ macroPeriod p.toNat := macroPeriod_toNat_lower hp
  by_cases hround : RoundsUp m.toNat p.toNat
  · have hone : d = m.toNat + 1 := hd.trans (mclkExact_usExact_of_roundsUp hq hround)
    exact ⟨by omega, by omega, iff_of_true hone hround⟩
  · have hzero : d = m.toNat := hd.trans (mclkExact_usExact_of_not_roundsUp hq hround)
    exact ⟨by omega, by omega, iff_of_false (by omega) hround⟩

/-- `m * q + q / 2` is `q / 2` times an odd number, so where 1000 divides it, 8 divides `q / 2`. -/
theorem sixteen_dvd_macroPeriod_of_roundsUp {m p : Nat} (h : RoundsUp m p) : 16 ∣ macroPeriod p := by
  obtain ⟨heven, hmod⟩ := h
  obtain ⟨k, hk⟩ := Nat.dvd_of_mod_eq_zero heven
  have hfactor : m * macroPeriod p + macroPeriod p / 2 = k * (2 * m + 1) := by
    rw [hk, Nat.mul_div_cancel_left k (by decide)]
    ring
  have hdvd : 8 ∣ k * (2 * m + 1) := hfactor ▸ Dvd.dvd.trans (by decide) (Nat.dvd_of_mod_eq_zero hmod)
  have hcop : Nat.Coprime 8 (2 * m + 1) := Nat.Coprime.pow_left 3 (Nat.coprime_two_left.2 ⟨m, rfl⟩)
  rw [hk]
  exact Nat.mul_dvd_mul_left 2 (hcop.dvd_of_dvd_mul_right hdvd)

/-- With `p = 2 * k` and the period `16 * t`, dividing by 20 leaves `381312 * k` within 25 of `800 * t`; both are multiples of 32,
so they are equal, and 25 divides `k`. -/
theorem fifty_dvd_of_sixteen_dvd_macroPeriod {p : Nat} (heven : 2 ∣ p) (h : 16 ∣ macroPeriod p) : 50 ∣ p := by
  obtain ⟨k, rfl⟩ := heven
  obtain ⟨t, ht⟩ := h
  rw [macroPeriod_eq, Nat.div_eq_iff (by decide)] at ht
  obtain ⟨hlower, hupper⟩ := ht
  have hequal : 25 * t = 11916 * k := by omega
  have hdvd : 25 ∣ k := Nat.Coprime.dvd_of_dvd_mul_left (by decide) (Dvd.intro t hequal)
  exact Nat.mul_dvd_mul_left 2 hdvd

/-- Settles O18: an even period that is no multiple of 50 never rounds up, and the five listed periods are such. -/
theorem clockConversionExactPeriods : Obligations.ClockConversionExactPeriods := by
  intro m p hovf d
  have hexact (hp : p ≠ 0) (heven : p.toNat % 2 = 0) (h50 : p.toNat % 50 ≠ 0) : d = m.toNat := by
    have hround : ¬ RoundsUp m.toNat p.toNat := by
      intro hround
      have hdvd := sixteen_dvd_macroPeriod_of_roundsUp hround
      exact h50 (Nat.mod_eq_zero_of_dvd (fifty_dvd_of_sixteen_dvd_macroPeriod (Nat.dvd_of_mod_eq_zero heven) hdvd))
    calc d = mclkExact (usExact m.toNat p.toNat) p.toNat := us2mclk_mclk2us_y_toNat hp hovf
      _ = m.toNat := mclkExact_usExact_of_not_roundsUp (macroPeriod_toNat_lower hp) hround
  constructor
  · intro hlisted
    simp only [List.mem_cons, List.not_mem_nil, or_false] at hlisted
    obtain rfl | rfl | rfl | rfl | rfl := hlisted <;> exact hexact (by decide) (by decide) (by decide)
  · intro hlow _ heven h50
    exact hexact (by rintro rfl; exact absurd hlow (by decide)) heven h50

/-! ## A time to macro clocks and back (41_clock_conversion.md R99) -/

/-- The count times `q` is within `q / 2` of `1000 * u`, and the way back adds `q / 2`. -/
theorem usExact_mclkExact_bounds {p : Nat} (u : Nat) (hq : macroPeriod p ≠ 0) :
    u ≤ usExact (mclkExact u p) p ∧ usExact (mclkExact u p) p ≤ u + macroPeriod p / 1000 := by
  unfold usExact mclkExact Config.mpDiv
  generalize macroPeriod p = q at *
  have hdiv := Nat.div_add_mod' (u * 1000 + q / 2) q
  have hmod := Nat.mod_lt (u * 1000 + q / 2) (Nat.pos_of_ne_zero hq)
  constructor <;> omega

theorem mclk2us_us2mclk_y_toNat {u : BitVec 32} {p : BitVec 16} (hp : p ≠ 0)
    (h : flagSet (eval (.mclk2us ((eval (.us2mclk u p)).y.setWidth 32) p)).f .ovf = false) :
    (eval (.mclk2us ((eval (.us2mclk u p)).y.setWidth 32) p)).y.toNat = usExact (mclkExact u.toNat p.toNat) p.toNat := by
  have hfits := mclkExact_lt u.isLt (macroPeriod_toNat_ne_zero hp)
  rw [eval_mclk2us_y_toNat_of_fits h, BitVec.toNat_setWidth, eval_us2mclk_y_toNat u hp, Nat.mod_eq_of_lt hfits]

/-- Settles O19: the macro period at 24 is 91515, and the time 199915 moves up by 91. -/
theorem reverseConversionMovesUp : Obligations.ReverseConversionMovesUp := by
  refine ⟨fun u hovf => ?_, 199915, by decide⟩
  have hq : macroPeriod (24 : BitVec 16).toNat = 91515 := by decide
  have hbounds := usExact_mclkExact_bounds u.toNat (p := (24 : BitVec 16).toNat) (by rw [hq]; decide)
  rw [hq] at hbounds
  exact mclk2us_us2mclk_y_toNat (by decide) hovf ▸ hbounds

end Sys2Proof.Machine
end

section
/-! PROOFS. 42_spad.md: SPADINFO (O20), the bit-field shifter (O21), and SPADMAP's loop (O22), its combinational form (O23) and its
selection policy (O24 to O26). -/

namespace Sys2Proof.Machine

/-! ## SPADINFO (42_spad.md R110) -/

/-- The count field with the 0 above it is the byte with its top bit cleared. -/
theorem zero_append_infoCount (info : BitVec 8) : 0#1 ++ infoCount info = info &&& 0x7F := by
  have happend : 0#1 ++ infoCount info = (infoCount info).setWidth 8 := (BitVec.setWidth_eq_append (by decide)).symm
  rw [happend]
  exact setWidth_extractLsb'_eq_and (by decide)

/-- SPADINFO's result has the layout of the encoder's `b` for SPADMAP: a count byte below the aperture bit (30_encoding.md R53). -/
theorem evalSpadinfo_y_eq (info : BitVec 8) :
    (evalSpadinfo info).y = (BitVec.ofBool (infoAperture info) ++ (info &&& 0x7F)).setWidth 48 := by
  rw [evalSpadinfo, BitVec.append_assoc, zero_append_infoCount]
  rfl

theorem infoAperture_toNat (info : BitVec 8) : (BitVec.ofBool (infoAperture info)).toNat = info.toNat / 128 := by
  have := info.isLt
  rw [infoAperture, ofBool_getLsbD_eq_extractLsb', BitVec.extractLsb'_toNat, Nat.shiftRight_eq_div_pow]
  omega

theorem evalSpadinfo_y_toNat (info : BitVec 8) :
    (evalSpadinfo info).y.toNat = info.toNat % 128 + 256 * (info.toNat / 128) := by
  have hcount : (info &&& 0x7F).toNat = info.toNat % 128 := Nat.and_two_pow_sub_one_eq_mod info.toNat 7
  rw [evalSpadinfo_y_eq, BitVec.toNat_setWidth_of_le (by decide), toNat_append_byte, infoAperture_toNat, hcount]
  omega

theorem decode_eq_spadinfo {c : Command} (h : c.op = 0x6) : decode c = .spadinfo (c.a.extractLsb' 0 8) := by
  simp [decode, h]

/-- `y[15:0]` of SPADINFO is the `b` that the encoder gives a SPADMAP with its count and aperture. -/
theorem spadinfo_y_eq_spadmap_b (info : BitVec 8) (map : BitVec 48) :
    (eval (.spadinfo info)).y.setWidth 16 = (encodeCommand (.spadmap map (info &&& 0x7F) (infoAperture info))).b := by
  rw [eval, evalSpadinfo_y_eq, BitVec.setWidth_setWidth_of_le _ (by decide)]
  rfl

/-- Settles O20: the result is the count plus 256 times the aperture bit, and a SPADMAP that takes it is an encoded one. -/
theorem spadinfoSplitsByte : Obligations.SpadinfoSplitsByte := by
  refine ⟨fun info s => ?_, fun c => decode_eq_spadinfo, fun info map => ?_⟩
  · rw [exec_eq_next, ← evalSpadinfo_y_toNat, BitVec.ofNat_toNat, BitVec.setWidth_eq]
    rfl
  · rw [spadinfo_y_eq_spadmap_b info map]
    exact decode_encodeCommand_spadmap map (info &&& 0x7F) (infoAperture info)

/-! ## The bit-field shifter (42_spad.md R112) -/

/-- Settles O21: a read, a byte's column and a clear all name the port bit of their index. -/
theorem spadShifterNamesPortBit : Obligations.SpadShifterNamesPortBit :=
  fun m i _ => ⟨readMapBit_eq_getLsbD m i, getLsbD_mapByte m i, fun j _ => getLsbD_clearMapBit m i j⟩

/-! ## One visit of SPADMAP's loop (42_spad.md R113, R114) -/

/-- The visit of bit `i` forces it to 0: the bit is not eligible, or the running count has reached `count`. -/
def spadForced (src : BitVec 48) (count first i : Nat) : Bool :=
  decide (i < first) || decide ((spadLoop src count first i).en = count)

theorem spadForced_eq_true_iff (src : BitVec 48) (count first i : Nat) :
    spadForced src count first i = true ↔ i < first ∨ (spadLoop src count first i).en = count := by
  simp [spadForced]

theorem spadForced_eq_false_iff (src : BitVec 48) (count first i : Nat) :
    spadForced src count first i = false ↔ first ≤ i ∧ (spadLoop src count first i).en ≠ count := by
  simp [spadForced]

/-- The visit of bit `n` clears it, counts it, or changes nothing. -/
theorem spadLoop_succ_cases (src : BitVec 48) (count first n : Nat) :
    (spadForced src count first n = true ∧ spadLoop src count first (n + 1) =
      { out := clearMapBit (spadLoop src count first n).out n, en := (spadLoop src count first n).en }) ∨
    (spadForced src count first n = false ∧ src.getLsbD n = true ∧ spadLoop src count first (n + 1) =
      { out := (spadLoop src count first n).out, en := (spadLoop src count first n).en + 1 }) ∨
    (spadForced src count first n = false ∧ src.getLsbD n = false ∧
      spadLoop src count first (n + 1) = spadLoop src count first n) := by
  have hvisit := spadVisit_cases src count first (spadLoop src count first n) n
  rwa [← spadForced_eq_true_iff, Bool.not_eq_true, readMapBit_eq_getLsbD] at hvisit

theorem spadLoop_succ_en (src : BitVec 48) (count first n : Nat) :
    (spadLoop src count first (n + 1)).en =
      if spadForced src count first n then (spadLoop src count first n).en
      else if src.getLsbD n then (spadLoop src count first n).en + 1 else (spadLoop src count first n).en := by
  obtain ⟨hf, hv⟩ | ⟨hf, hbit, hv⟩ | ⟨hf, hbit, hv⟩ := spadLoop_succ_cases src count first n
  · simp [hv, hf]
  · simp [hv, hf, hbit]
  · simp [hv, hf, hbit]

theorem spadLoop_succ_out_getLsbD (src : BitVec 48) (count first n j : Nat) :
    (spadLoop src count first (n + 1)).out.getLsbD j =
      if j = n then !spadForced src count first n && src.getLsbD n else (spadLoop src count first n).out.getLsbD j := by
  have hsrc : (spadLoop src count first n).out.getLsbD n = src.getLsbD n :=
    spadLoop_out_getLsbD_of_le src count first (Nat.le_refl n)
  obtain ⟨hf, hv⟩ | ⟨hf, -, hv⟩ | ⟨hf, -, hv⟩ := spadLoop_succ_cases src count first n <;> rw [hv, hf]
  · by_cases hj : j = n <;> simp [getLsbD_clearMapBit, hj]
  · split <;> simp [*]
  · split <;> simp [*]

theorem decode_eq_spadmap {c : Command} (h : c.op = 0x7) :
    decode c = .spadmap c.a (c.b.extractLsb' 0 8) (c.b.getLsbD 8) := by
  simp [decode, h]

/-- Settles O22: the run of the model's loop is the sequence of maps and counts that the rule describes. -/
theorem spadmapVisitsBitsInOrder : Obligations.SpadmapVisitsBitsInOrder := by
  refine ⟨fun src count ap => ?_, fun c => decode_eq_spadmap⟩
  let loop := spadLoop src count.toNat (spadFirst ap)
  refine ⟨fun n => ((loop n).out, (loop n).en), rfl, spadLoop_en_le .., exec_eq_next _, fun i _ => ⟨?_, fun j _ => ?_⟩⟩
  · exact spadLoop_succ_en src count.toNat (spadFirst ap) i
  · exact spadLoop_succ_out_getLsbD src count.toNat (spadFirst ap) i j

/-! ## The combinational form (42_spad.md R115) -/

/-- The running count is the number of eligible capable bits below `n`, held at `count`. -/
theorem spadLoop_en_eq_min (src : BitVec 48) (count first n : Nat) :
    (spadLoop src count first n).en = min count (popcountRange src first n) := by
  induction n with
  | zero => simp
  | succ n ih =>
    obtain ⟨hf, hv⟩ | ⟨hf, hbit, hv⟩ | ⟨-, hbit, hv⟩ := spadLoop_succ_cases src count first n <;> simp only [hv]
    · obtain hfirst | hfull := (spadForced_eq_true_iff ..).1 hf
      · rw [ih, popcountRange_empty src hfirst.le, popcountRange_empty src hfirst]
      · have hmono : popcountRange src first n ≤ popcountRange src first (n + 1) := popcountRange_mono src first n.le_succ
        omega
    · obtain ⟨hfirst, hroom⟩ := (spadForced_eq_false_iff ..).1 hf
      rw [popcountRange_succ, if_pos ⟨hfirst, hbit⟩]
      omega
    · simpa [popcountRange_succ, hbit] using ih

theorem spadSelects_eq_true_iff (src : BitVec 48) (count first i : Nat) :
    spadSelects src count first i = true ↔
      src.getLsbD i = true ∧ first ≤ i ∧ popcountRange src first i < count := by
  simp [spadSelects, and_assoc]

/-- A bit is forced to 0 unless it is eligible and fewer than `count` eligible capable bits lie below it. -/
theorem not_spadForced_and_eq_spadSelects (src : BitVec 48) (count first i : Nat) :
    (!spadForced src count first i && src.getLsbD i) = spadSelects src count first i := by
  have hroom : min count (popcountRange src first i) ≠ count ↔ popcountRange src first i < count := by omega
  rw [Bool.eq_iff_iff, Bool.and_eq_true, Bool.not_eq_true', spadForced_eq_false_iff, spadLoop_en_eq_min, hroom, and_comm,
    spadSelects_eq_true_iff]

/-- A visited bit is the comparator's bit. -/
theorem spadLoop_out_getLsbD_of_lt (src : BitVec 48) (count first : Nat) {n i : Nat} (h : i < n) :
    (spadLoop src count first n).out.getLsbD i = spadSelects src count first i := by
  induction n with
  | zero => omega
  | succ n ih =>
    rw [spadLoop_succ_out_getLsbD]
    split
    case isTrue hi => rw [hi, not_spadForced_and_eq_spadSelects]
    case isFalse hi => exact ih (by omega)

theorem spadSelects_of_ge (src : BitVec 48) (count first : Nat) {i : Nat} (h : 48 ≤ i) :
    spadSelects src count first i = false := by
  simp [spadSelects, BitVec.getLsbD_of_ge src i h]

theorem eval_spadmap_y_getLsbD (src : BitVec 48) (count : BitVec 8) (ap : Bool) (i : Nat) :
    (eval (.spadmap src count ap)).y.getLsbD i = spadSelects src count.toNat (spadFirst ap) i := by
  by_cases hi : i < 48
  · exact spadLoop_out_getLsbD_of_lt src count.toNat (spadFirst ap) hi
  · rw [spadSelects_of_ge _ _ _ (by omega), BitVec.getLsbD_of_ge _ _ (by omega)]

theorem eval_spadmap_z_toNat (src : BitVec 48) (count : BitVec 8) (ap : Bool) :
    (eval (.spadmap src count ap)).z.toNat = min count.toNat (popcountRange src (spadFirst ap) 48) := by
  rw [eval, evalSpadmap_z_toNat, spadLoop_en_eq_min]

/-- Settles O23: the loop's bits and its running count in closed form. -/
theorem spadmapSelectsByPrefixCount : Obligations.SpadmapSelectsByPrefixCount := by
  intro src count ap s first
  have hz : (eval (.spadmap src count ap)).z = BitVec.ofNat 8 (min count.toNat (popcountRange src first 48)) :=
    congrArg (BitVec.ofNat 8) (spadLoop_en_eq_min src count.toNat first 48)
  refine ⟨(eval (.spadmap src count ap)).y, ?_, fun i _ => eval_spadmap_y_getLsbD src count ap i⟩
  rw [exec_eq_next, ← hz]
  rfl

/-! ## Counting bits of two maps -/

/-- A set bit of the range makes the count up to it smaller than the whole range's. -/
theorem popcountRange_lt_of_getLsbD {w lo i hi : Nat} {v : BitVec w} (hlo : lo ≤ i) (hhi : i < hi)
    (hbit : v.getLsbD i = true) : popcountRange v lo i < popcountRange v lo hi := by
  have hsucc : popcountRange v lo (i + 1) = popcountRange v lo i + 1 := by rw [popcountRange_succ, if_pos ⟨hlo, hbit⟩]
  have hmono : popcountRange v lo (i + 1) ≤ popcountRange v lo hi := popcountRange_mono v lo hhi
  omega

/-- A map with no more bits counts no more of them. -/
theorem popcountRange_le_of_subset {w w' : Nat} {v : BitVec w} {u : BitVec w'} {lo lo' hi : Nat}
    (h : ∀ i < hi, lo ≤ i → v.getLsbD i = true → u.getLsbD i = true ∧ lo' ≤ i) :
    popcountRange v lo hi ≤ popcountRange u lo' hi := by
  induction hi with
  | zero => simp
  | succ n ih =>
    have hle := ih fun i hi => h i (by omega)
    rw [popcountRange_succ, popcountRange_succ]
    by_cases hn : lo ≤ n ∧ v.getLsbD n = true
    · obtain ⟨hbit, hlo⟩ := h n (by omega) hn.1 hn.2
      rw [if_pos hn, if_pos ⟨hlo, hbit⟩]
      omega
    · rw [if_neg hn]
      omega

/-- Clear bits at the top of a range do not count. -/
theorem popcountRange_eq_of_clear_above {w lo n hi : Nat} {v : BitVec w} (hn : n ≤ hi)
    (h : ∀ i < hi, n ≤ i → v.getLsbD i = false) : popcountRange v lo hi = popcountRange v lo n := by
  induction hi, hn using Nat.le_induction with
  | base => rfl
  | succ hi hn ih =>
    rw [popcountRange_succ, ih fun i hi => h i (by omega), h hi (by omega) hn]
    simp

/-! ## The selection policy (42_spad.md R116, R117) -/

theorem spadSelects_of_lt {src : BitVec 48} {count first i j : Nat} (hj : first ≤ j) (hij : j < i)
    (hbit : src.getLsbD j = true) (h : spadSelects src count first i = true) : spadSelects src count first j = true := by
  obtain ⟨-, -, hcount⟩ := (spadSelects_eq_true_iff ..).1 h
  have hmono : popcountRange src first j ≤ popcountRange src first i := popcountRange_mono src first hij.le
  exact (spadSelects_eq_true_iff ..).2 ⟨hbit, hj, by omega⟩

theorem popcount_eval_spadmap_y (src : BitVec 48) (count : BitVec 8) (ap : Bool) :
    popcount (eval (.spadmap src count ap)).y = (eval (.spadmap src count ap)).z.toNat := by
  rw [eval, evalSpadmap_z_toNat, spadLoop_en_eq_popcountRange]
  rfl

/-- Settles O24: the comparator's bit needs a capable eligible bit, and the number of those below it grows with the index. -/
theorem spadmapKeepsLowestCapable : Obligations.SpadmapKeepsLowestCapable := by
  intro src count ap first o
  have hbit (i : Nat) : o.y.getLsbD i = spadSelects src count.toNat first i := eval_spadmap_y_getLsbD src count ap i
  refine ⟨(popcount_eval_spadmap_y src count ap).symm, (legalOutputs_evalSpadmap src count ap).countAtMost48, ?_, fun i hi => ?_,
    fun i j hj hij hsrc h => ?_⟩
  · apply BitVec.eq_of_getLsbD_eq
    intro i hi
    rw [BitVec.getLsbD_and, BitVec.getLsbD_not, hbit, spadSelects]
    cases src.getLsbD i <;> simp
  · simp [hbit, spadSelects, hi]
  · rw [hbit] at h ⊢
    exact spadSelects_of_lt hj hij hsrc h

/-- A subset of the eligible capable bits that has `min(count, …)` bits and is closed downwards has the comparator's bits: below a
kept bit all are kept, so fewer than `count` lie there; and a bit that is left out while fewer than `count` lie below it has nothing
kept above it, so too few bits are kept. -/
theorem getLsbD_eq_spadSelects_of_greedy {src y : BitVec 48} {count first i : Nat} (hi : i < 48)
    (hsub : ∀ i < 48, y.getLsbD i = true → src.getLsbD i = true ∧ first ≤ i)
    (hnumber : popcount y = min count (popcountRange src first 48))
    (hlowest : ∀ i j, first ≤ j → j < i → src.getLsbD j = true → y.getLsbD i = true → y.getLsbD j = true) :
    y.getLsbD i = spadSelects src count first i := by
  rw [Bool.eq_iff_iff, spadSelects_eq_true_iff]
  constructor
  · intro hkept
    obtain ⟨hsrc, hfirst⟩ := hsub i hi hkept
    have hprefix : popcountRange src first i ≤ popcountRange y 0 i :=
      popcountRange_le_of_subset fun j hj hlo hbit => ⟨hlowest i j hlo hj hbit hkept, Nat.zero_le j⟩
    have hmore : popcountRange y 0 i < popcount y := popcountRange_lt_of_getLsbD (Nat.zero_le i) hi hkept
    exact ⟨hsrc, hfirst, by omega⟩
  · rintro ⟨hsrc, hfirst, hcount⟩
    by_contra hcleared
    have hclear (j : Nat) (_ : j < 48) (hij : i ≤ j) : y.getLsbD j = false := by
      by_contra hj
      rw [Bool.not_eq_false] at hj
      obtain rfl | hij := hij.eq_or_lt
      · exact hcleared hj
      · exact hcleared (hlowest j i hfirst hij hsrc hj)
    have hnone : popcount y = popcountRange y 0 i := popcountRange_eq_of_clear_above hi.le hclear
    have hprefix : popcountRange y 0 i ≤ popcountRange src first i :=
      popcountRange_le_of_subset fun j hj _ => hsub j (by omega)
    have hmore : popcountRange src first i < popcountRange src first 48 := popcountRange_lt_of_getLsbD hfirst hi hsrc
    omega

/-- Settles O25: SPADMAP's map is such a subset, and every such subset has the comparator's bits. -/
theorem spadmapPolicyIsGreedy : Obligations.SpadmapPolicyIsGreedy := by
  intro src count ap y first
  have hbit (i : Nat) : (eval (.spadmap src count ap)).y.getLsbD i = spadSelects src count.toNat first i :=
    eval_spadmap_y_getLsbD src count ap i
  constructor
  · rintro rfl
    refine ⟨fun i _ hkept => ?_, ?_, fun i j hj hij hsrc hkept => ?_⟩
    · obtain ⟨hsrc, hfirst, -⟩ := (spadSelects_eq_true_iff ..).1 (hbit i ▸ hkept)
      exact ⟨hsrc, hfirst⟩
    · exact (popcount_eval_spadmap_y src count ap).trans (eval_spadmap_z_toNat src count ap)
    · rw [hbit] at hkept ⊢
      exact spadSelects_of_lt hj hij hsrc hkept
  · rintro ⟨hsub, hnumber, hlowest⟩
    apply BitVec.eq_of_getLsbD_eq
    intro i hi
    rw [hbit, getLsbD_eq_spadSelects_of_greedy hi hsub hnumber hlowest]

/-! ## Counts that no map reaches (42_spad.md R118, R119) -/

/-- With no more than `count` capable eligible bits the comparator never refuses one. -/
theorem spadSelects_of_few {src : BitVec 48} {count first i : Nat} (hi : i < 48)
    (h : popcountRange src first 48 ≤ count) :
    spadSelects src count first i = (src.getLsbD i && decide (first ≤ i)) := by
  rw [Bool.eq_iff_iff, spadSelects_eq_true_iff, Bool.and_eq_true, decide_eq_true_iff]
  refine ⟨fun ⟨hsrc, hfirst, _⟩ => ⟨hsrc, hfirst⟩, fun ⟨hsrc, hfirst⟩ => ⟨hsrc, hfirst, ?_⟩⟩
  exact (popcountRange_lt_of_getLsbD hfirst hi hsrc).trans_le h

/-- Settles O26: the comparator refuses no bit, and `z` is the smaller of `count` and the number of capable eligible bits. -/
theorem spadmapFewPadsKeptAll : Obligations.SpadmapFewPadsKeptAll := by
  intro src count ap first
  have hz : (eval (.spadmap src count ap)).z.toNat = min count.toNat (popcountRange src first 48) :=
    eval_spadmap_z_toNat src count ap
  refine ⟨popcountRange_le src first 48, fun hfew => ⟨fun i hi => ?_, hz.trans (Nat.min_eq_right hfew), rfl⟩, ?_⟩
  · exact (eval_spadmap_y_getLsbD src count ap i).trans (spadSelects_of_few hi hfew)
  · rw [hz]
    omega

end Sys2Proof.Machine
end

section
/-! PROOFS. 60_exceptions.md: the flags an evaluation can raise (O30), the outcomes a host can use (O32, O33), runs that no flag
stops (O46), and outputs that every step keeps legal (O47). -/

namespace Sys2Proof.Machine

/-! ## Outputs stay legal (60_exceptions.md R131 to R136) -/

/-- Settles O47: an evaluation leaves outputs that follow the inputs, which are legal, and a use leaves `Last` as it was. -/
theorem stepKeepsLegalOutputs : Obligations.StepKeepsLegalOutputs := by
  intro s t hs h
  obtain ⟨-, rfl⟩ | ⟨p, rest, -, rfl⟩ | ⟨rest, -, rfl⟩ := step_next_cases h
  · exact legalState_of_outputsFollowInputs rfl
  · exact legalState_of_outputsFollowInputs rfl
  · exact hs

/-! ## The flags and the operations they come from (60_exceptions.md R136) -/

theorem flagSet_zero_ne_true (c : Cause) : ¬ flagSet 0 c = true := by
  rw [flagSet_zero]
  exact Bool.false_ne_true

theorem flagSet_raise_iff (c d : Cause) : flagSet (raise c) d = true ↔ c = d := by
  cases c <;> cases d <;> decide

theorem eq_of_flagSet_raiseIf {condition : Bool} {c d : Cause} (h : flagSet (raiseIf condition c) d = true) : c = d := by
  cases condition with
  | false => exact absurd h (flagSet_zero_ne_true d)
  | true => exact (flagSet_raise_iff c d).1 h

/-- The operations that can raise a flag, by their mnemonics (60_exceptions.md R131 to R134). -/
def flagSources : Cause → List String
  | .ill => ["RESERVED0", "RESERVED8-F"]
  | .ovf => ["TMO2MCLK", "MCLK2US"]
  | .sat => ["MCLK2TMO"]
  | .dz => ["US2MCLK"]

/-- A flag comes only from its own operations: each operation drives 0 or the one flag of its row. -/
theorem mnemonic_mem_flagSources {i : Instr} {c : Cause} (h : flagSet (eval i).f c = true) : i.mnemonic ∈ flagSources c := by
  cases i with
  | tmo2mclk raw | mclk2us m p =>
    obtain rfl : .ovf = c := eq_of_flagSet_raiseIf h
    simp [flagSources, Instr.mnemonic]
  | mclk2tmo m =>
    obtain rfl : .sat = c := eq_of_flagSet_raiseIf h
    simp [flagSources, Instr.mnemonic]
  | us2mclk u p =>
    by_cases hp : p = 0
    · rw [hp, eval_us2mclk_zero] at h
      obtain rfl := (flagSet_raise_iff .dz c).1 h
      simp [flagSources, Instr.mnemonic]
    · rw [eval_us2mclk_of_ne_zero u hp] at h
      exact absurd h (flagSet_zero_ne_true c)
  | vcsel2pclk reg | spadinfo info | spadmap m count ap => exact absurd h (flagSet_zero_ne_true c)
  | reserved0 | reserved8F low =>
    obtain rfl := (flagSet_raise_iff .ill c).1 h
    simp [flagSources, Instr.mnemonic]

/-- A reserved mnemonic is a reserved operation's, which always raises ILL. -/
theorem flagSet_ill_of_mnemonic {i : Instr} (h : i.mnemonic ∈ flagSources .ill) : flagSet (eval i).f .ill = true := by
  cases i with
  | reserved0 | reserved8F low => exact (flagSet_raise_iff .ill .ill).2 rfl
  | _ => simp [flagSources, Instr.mnemonic] at h

/-- Settles O30: legal outputs have at most one flag, and a flag that is 1 names its operations. -/
theorem atMostOneFlagPerCommand : Obligations.AtMostOneFlagPerCommand := by
  intro i
  refine ⟨by simpa using (legalOutputs_eval i).oneFlag, ⟨mnemonic_mem_flagSources, flagSet_ill_of_mnemonic⟩,
    mnemonic_mem_flagSources, fun h => ?_, fun h => ?_⟩
  · exact List.mem_singleton.1 (mnemonic_mem_flagSources h)
  · exact List.mem_singleton.1 (mnemonic_mem_flagSources h)

/-! ## Using an outcome (60_exceptions.md R131 to R135, log entry 1) -/

theorem asValue_of_fault {o : Outputs} {e : Fault} (h : flagFault o.f = some e) : asValue o = .error e := by
  simp [asValue, h]

theorem asValue_of_no_fault {o : Outputs} (h : flagFault o.f = none) : asValue o = .ok o := by
  simp [asValue, h]

/-- A use of an outcome that counts as a fault stops with it. -/
theorem step_use_of_fault {s : State} {rest : List HostAction} {o : Outputs} {e : Fault} (hhost : s.host = .use :: rest)
    (hlast : s.last = some o) (h : flagFault o.f = some e) : step s = .fault e := by
  rw [step_use hhost]
  exact useStep_fault ((useLast_of_some hlast).trans (asValue_of_fault h))

/-- A use of any other outcome takes the use off the host's list and goes on. -/
theorem step_use_of_no_fault {s : State} {rest : List HostAction} {o : Outputs} (hhost : s.host = .use :: rest)
    (hlast : s.last = some o) (h : flagFault o.f = none) : step s = .next { s with host := rest } := by
  rw [step_use hhost]
  exact (useStep_eq_next_iff _).2 ⟨o, (useLast_of_some hlast).trans (asValue_of_no_fault h)⟩

/-- Legal outputs have no flag or the one flag of a cause. -/
theorem LegalOutputs.f_cases {o : Outputs} (ho : LegalOutputs o) : o.f = 0 ∨ ∃ c, o.f = raise c := by
  obtain hf | hf | hf | hf | hf := ho.oneFlag
  · exact .inl hf
  · exact .inr ⟨.ill, hf⟩
  · exact .inr ⟨.ovf, hf⟩
  · exact .inr ⟨.sat, hf⟩
  · exact .inr ⟨.dz, hf⟩

theorem LegalOutputs.f_eq_raise {o : Outputs} {c : Cause} (ho : LegalOutputs o) (h : flagSet o.f c = true) : o.f = raise c := by
  obtain hf | ⟨d, hf⟩ := ho.f_cases
  · exact absurd (hf ▸ h) (flagSet_zero_ne_true c)
  · obtain rfl : d = c := (flagSet_raise_iff d c).1 (hf ▸ h)
    exact hf

/-- A use of an outcome flagged with a fault's cause stops with that fault. -/
theorem step_use_of_flagSet {s : State} {rest : List HostAction} {i : Instr} {c : Cause} {e : Fault}
    (hhost : s.host = .use :: rest) (hlast : s.last = some (eval i)) (hc : flagFault (raise c) = some e)
    (h : flagSet (eval i).f c = true) : step s = .fault e :=
  step_use_of_fault hhost hlast (by rw [(legalOutputs_eval i).f_eq_raise h, hc])

/-- Settles O32: an evaluation's outputs have at most one flag, so the flag that is 1 decides what the use does. -/
theorem useFaultsOnFlaggedOutcome : Obligations.UseFaultsOnFlaggedOutcome := by
  intro s rest hhost
  refine ⟨fun hlast => ?_, fun i hlast => ⟨?_, ?_, ?_, fun h => ?_⟩⟩
  · rw [step_use hhost]
    exact useStep_fault (useLast_of_none hlast)
  · exact step_use_of_flagSet hhost hlast flagFault_ill
  · exact step_use_of_flagSet hhost hlast flagFault_ovf
  · exact step_use_of_flagSet hhost hlast flagFault_dz
  · apply step_use_of_no_fault hhost hlast
    obtain h | h := h
    · exact (congrArg flagFault h).trans flagFault_zero
    · exact (congrArg flagFault h).trans flagFault_sat

/-- A command is usable exactly where its outcome counts as no fault. -/
theorem exists_useCommand_ok_iff (i : Instr) : (∃ o, useCommand i = .ok o) ↔ flagFault (eval i).f = none := by
  cases h : flagFault (eval i).f with
  | none => exact iff_of_true ⟨_, asValue_of_no_fault h⟩ rfl
  | some e => simp [useCommand, asValue_of_fault h]

theorem flagFault_overflowFlag_eq_none_iff (n : Nat) : flagFault (overflowFlag n) = none ↔ n < 2 ^ 32 := by
  rw [overflowFlag_eq]
  split
  case isTrue h => exact iff_of_false (by decide) (Nat.not_lt.2 h)
  case isFalse h => exact iff_of_true rfl (Nat.not_le.1 h)

/-- A clamped count is an ordinary value (60_exceptions.md R133). -/
theorem flagFault_raiseIf_sat (condition : Bool) : flagFault (raiseIf condition .sat) = none := by
  cases condition <;> rfl

theorem flagFault_us2mclk_eq_none_iff (u : BitVec 32) (p : BitVec 16) : flagFault (eval (.us2mclk u p)).f = none ↔ p ≠ 0 := by
  by_cases hp : p = 0
  · rw [hp, eval_us2mclk_zero]
    decide
  · rw [eval_us2mclk_of_ne_zero u hp]
    exact iff_of_true flagFault_zero hp

/-- Settles O33: an operation's flag is a fault or not, and where it is one the outcome is a value exactly when it is 0. -/
theorem commandsUsableExactly : Obligations.CommandsUsableExactly := by
  intro i
  rw [exists_useCommand_ok_iff]
  cases i with
  | tmo2mclk raw =>
    refine (flagFault_overflowFlag_eq_none_iff (tmoExact raw)).trans ?_
    rw [tmoExact_eq]
  | mclk2us m p => exact flagFault_overflowFlag_eq_none_iff (usExact m.toNat p.toNat)
  | us2mclk u p => exact flagFault_us2mclk_eq_none_iff u p
  | mclk2tmo m => exact iff_of_true (flagFault_raiseIf_sat _) trivial
  | vcsel2pclk reg | spadinfo info | spadmap m count ap => exact iff_of_true flagFault_zero trivial
  | reserved0 | reserved8F low => exact iff_of_false (flagFault_ill ▸ Option.some_ne_none _) id

/-! ## Runs that present commands only (60_exceptions.md R130) -/

/-- Settles O46, by induction on the steps: presenting takes one command off the list and holding leaves it empty, and both go on. -/
theorem presentingNeverStops : Obligations.PresentingNeverStops := by
  intro s ps k hhost
  induction k generalizing s ps with
  | zero => exact ⟨s, run_zero s⟩
  | succ k ih =>
    rw [SafeRun]
    cases ps with
    | nil =>
      rw [run_succ_of_next (step_hold_eq hhost)]
      exact ih _ [] hhost
    | cons p ps =>
      rw [run_succ_of_next (step_present_eq hhost)]
      exact ih _ ps rfl

end Sys2Proof.Machine
end

section
/-! PROOFS. 70_reset_and_hazards.md: undriven inputs (O41), power-up (O50), and the host's final-range sequences: writing (O51),
reading (O52), and one after the other (O53). -/

namespace Sys2Proof.Machine

/-! ## Undriven inputs (70_reset_and_hazards.md R150) -/

/-- A driven mask that covers the bits an operation reads has each of them. -/
theorem getLsbD_of_and_eq_right {w k : Nat} {driven reads : BitVec w} (h : driven &&& reads = reads)
    (hk : reads.getLsbD k = true) : driven.getLsbD k = true := by
  rw [← h, BitVec.getLsbD_and, Bool.and_eq_true] at hk
  exact hk.1

/-- One undriven bit of `op`, or of an operand where the operation reads it, and no instruction is settled. -/
theorem settledInstr_eq_none_of_undriven_bit {p : Inputs}
    (h : (∃ k < 4, p.opDriven.getLsbD k = false) ∨
      (∃ k < 48, (readsA (decode p.command)).getLsbD k = true ∧ p.aDriven.getLsbD k = false) ∨
      (∃ k < 16, (readsB (decode p.command)).getLsbD k = true ∧ p.bDriven.getLsbD k = false)) :
    settledInstr p = none := by
  refine if_neg ?_
  rintro ⟨hop, ha, hb⟩
  obtain ⟨k, hk, hbit⟩ | ⟨k, -, hread, hbit⟩ | ⟨k, -, hread, hbit⟩ := h
  · rw [hop, BitVec.getLsbD_allOnes, decide_eq_true hk] at hbit
    exact Bool.noConfusion hbit
  · exact Bool.eq_false_iff.1 hbit (getLsbD_of_and_eq_right ha hread)
  · exact Bool.eq_false_iff.1 hbit (getLsbD_of_and_eq_right hb hread)

/-- Inputs that are not settled go on the ports and leave no value, and the step goes on. -/
theorem step_present_of_not_settled {s : State} {p : Inputs} {rest : List HostAction} (hhost : s.host = .present p :: rest)
    (h : settledInstr p = none) : step s = .next { inputs := p, last := none, host := rest } := by
  rw [step_present hhost]
  exact settle_of_none h

/-- Settles O41: the undriven bit keeps the instruction from being settled. -/
theorem undrivenInputsGiveNoValue : Obligations.UndrivenInputsGiveNoValue :=
  fun _ _ _ hhost h => step_present_of_not_settled hhost (settledInstr_eq_none_of_undriven_bit h)

/-! ## Power-up (70_reset_and_hazards.md R150, 10_state.md R27) -/

theorem settledOutputs_undriven : settledOutputs Inputs.undriven = none := by
  rw [settledOutputs, settledInstr_undriven]
  rfl

theorem outputsFollowInputs_reset : OutputsFollowInputs State.reset := settledOutputs_undriven.symm

/-- Holding the undriven inputs of power-up changes nothing. -/
theorem step_reset : step State.reset = .next State.reset := by
  rw [step_hold_eq State.reset_host, State.reset_inputs, settledOutputs_undriven]
  rfl

/-- Settles O50: at power-up `Last` is what the undriven inputs drive, no value, which a use cannot take and a step keeps. -/
theorem resetHoldsNoValue : Obligations.ResetHoldsNoValue :=
  ⟨State.reset_last, useLast_of_none State.reset_last, (step_use rfl).trans (useStep_fault (useLast_of_none rfl)), step_reset,
    legalState_of_outputsFollowInputs outputsFollowInputs_reset, outputsFollowInputs_reset⟩

/-! ## The commands of the sequences, used as values (00_scope.md R14) -/

theorem useCommand_of_fault {i : Instr} {e : Fault} (h : flagFault (eval i).f = some e) : useCommand i = .error e :=
  asValue_of_fault h

theorem useCommand_of_no_fault {i : Instr} (h : flagFault (eval i).f = none) : useCommand i = .ok (eval i) :=
  asValue_of_no_fault h

theorem flagFault_overflowFlag_of_le {n : Nat} (h : 2 ^ 32 ≤ n) : flagFault (overflowFlag n) = some .ovf := by
  rw [overflowFlag_eq, if_pos h]
  rfl

theorem useCommand_tmo2mclk_of_overflow {r : BitVec 16} (h : 2 ^ 32 ≤ tmoExact r) :
    useCommand (.tmo2mclk r) = .error .ovf :=
  useCommand_of_fault (flagFault_overflowFlag_of_le h)

theorem useCommand_tmo2mclk_of_fits {r : BitVec 16} (h : tmoExact r < 2 ^ 32) :
    useCommand (.tmo2mclk r) = .ok (eval (.tmo2mclk r)) :=
  useCommand_of_no_fault ((flagFault_overflowFlag_eq_none_iff _).2 h)

theorem eval_tmo2mclk_y_toNat_of_fits {r : BitVec 16} (h : tmoExact r < 2 ^ 32) :
    (eval (.tmo2mclk r)).y.toNat = tmoExact r := by
  rw [eval_tmo2mclk_y_toNat, Nat.mod_eq_of_lt h]

theorem useCommand_mclk2tmo (m : BitVec 32) : useCommand (.mclk2tmo m) = .ok (eval (.mclk2tmo m)) :=
  useCommand_of_no_fault (flagFault_raiseIf_sat _)

theorem useCommand_us2mclk_of_ne_zero (us : BitVec 32) {p : BitVec 16} (hp : p ≠ 0) :
    useCommand (.us2mclk us p) = .ok (eval (.us2mclk us p)) :=
  useCommand_of_no_fault ((flagFault_us2mclk_eq_none_iff us p).2 hp)

theorem useCommand_us2mclk_zero (us : BitVec 32) : useCommand (.us2mclk us 0) = .error .dz := by
  apply useCommand_of_fault
  rw [eval_us2mclk_zero]
  rfl

theorem useCommand_mclk2us (m : BitVec 32) (p : BitVec 16) : useCommand (.mclk2us m p) =
    if 2 ^ 32 ≤ usExact m.toNat p.toNat then .error .ovf
    else .ok { y := BitVec.ofNat 48 (usExact m.toNat p.toNat), z := 0, f := 0 } := by
  split
  case isTrue h => exact useCommand_of_fault (flagFault_overflowFlag_of_le h)
  case isFalse h =>
    have hlt := Nat.not_le.1 h
    have hok : useCommand (.mclk2us m p) = .ok (eval (.mclk2us m p)) :=
      useCommand_of_no_fault ((flagFault_overflowFlag_eq_none_iff _).2 hlt)
    rw [hok, eval, evalMclk2us, resultY, overflowFlag_eq, if_neg h, Config.resultLimit, Nat.mod_eq_of_lt hlt]
    rfl

/-! ## The host's own arithmetic (log entry 13) -/

theorem hostCount_of_lt {n : Nat} (h : n < 2 ^ 32) : hostCount n = .ok (BitVec.ofNat 32 n) := if_pos h

theorem hostCount_of_le {n : Nat} (h : 2 ^ 32 ≤ n) : hostCount n = .error .hostRange := if_neg (Nat.not_lt.2 h)

theorem hostSubtract_of_le {x y : Nat} (hx : x < 2 ^ 32) (h : y ≤ x) : hostSubtract x y = .ok (BitVec.ofNat 32 (x - y)) :=
  (if_pos h).trans (hostCount_of_lt (Nat.lt_of_le_of_lt (Nat.sub_le x y) hx))

theorem hostSubtract_of_lt {x y : Nat} (h : x < y) : hostSubtract x y = .error .hostRange := if_neg (Nat.not_le.2 h)

/-! ## Writing the final-range timeout (70_reset_and_hazards.md R155) -/

theorem writeFinalRange_of_sum_lt {us : BitVec 32} {p : BitVec 16} {pre : BitVec 32} {en : Bool} (hp : p ≠ 0)
    (h : (mclkExact us.toNat p.toNat + if en then pre.toNat else 0) < 2 ^ 32) :
    writeFinalRange us p pre en =
      .ok (eval (.mclk2tmo (BitVec.ofNat 32 (mclkExact us.toNat p.toNat + if en then pre.toNat else 0)))) := by
  simp only [writeFinalRange, useCommand_us2mclk_of_ne_zero us hp, eval_us2mclk_y_toNat us hp, hostCount_of_lt h,
    useCommand_mclk2tmo]

theorem writeFinalRange_of_le_sum {us : BitVec 32} {p : BitVec 16} {pre : BitVec 32} {en : Bool} (hp : p ≠ 0)
    (h : 2 ^ 32 ≤ mclkExact us.toNat p.toNat + if en then pre.toNat else 0) :
    writeFinalRange us p pre en = .error .hostRange := by
  simp only [writeFinalRange, useCommand_us2mclk_of_ne_zero us hp, eval_us2mclk_y_toNat us hp, hostCount_of_le h]

theorem writeFinalRange_zero (us pre : BitVec 32) (en : Bool) : writeFinalRange us 0 pre en = .error .dz := by
  simp only [writeFinalRange, useCommand_us2mclk_zero]

/-- Settles O51: US2MCLK gives a count exactly for a period that is not 0, and the host's sum then fits or not. -/
theorem finalRangeWriteSequence : Obligations.FinalRangeWriteSequence := by
  refine fun us p pre en => ⟨writeFinalRange_of_sum_lt, writeFinalRange_of_le_sum, ?_⟩
  rintro rfl
  exact writeFinalRange_zero us pre en

/-! ## Reading the final-range timeout (70_reset_and_hazards.md R155) -/

theorem readFinalCount_of_overflow {fin : BitVec 16} (pre : BitVec 16) (en : Bool) (h : 2 ^ 32 ≤ tmoExact fin) :
    readFinalCount fin pre en = .error .ovf := by
  simp only [readFinalCount, useCommand_tmo2mclk_of_overflow h]

/-- With both pairs expanded, the pre-range count is the host's own subtraction. -/
theorem readFinalCount_of_fits {fin pre : BitVec 16} (hfin : tmoExact fin < 2 ^ 32) (hpre : tmoExact pre < 2 ^ 32) :
    readFinalCount fin pre true = hostSubtract (tmoExact fin) (tmoExact pre) := by
  simp only [readFinalCount, useCommand_tmo2mclk_of_fits hfin, useCommand_tmo2mclk_of_fits hpre,
    eval_tmo2mclk_y_toNat_of_fits hfin, eval_tmo2mclk_y_toNat_of_fits hpre]

/-- With pre-range not enabled, the pre-range pair does not matter. -/
theorem readFinalCount_false {fin : BitVec 16} (pre : BitVec 16) (hfin : tmoExact fin < 2 ^ 32) :
    readFinalCount fin pre false = .ok (BitVec.ofNat 32 (tmoExact fin)) := by
  simp only [readFinalCount, useCommand_tmo2mclk_of_fits hfin, eval_tmo2mclk_y_toNat_of_fits hfin, hostCount_of_lt hfin]

theorem readFinalCount_of_pre_overflow (fin : BitVec 16) {pre : BitVec 16} (h : 2 ^ 32 ≤ tmoExact pre) :
    readFinalCount fin pre true = .error .ovf := by
  obtain hfin | hfin := Nat.lt_or_ge (tmoExact fin) (2 ^ 32)
  · simp only [readFinalCount, useCommand_tmo2mclk_of_fits hfin, useCommand_tmo2mclk_of_overflow h]
  · exact readFinalCount_of_overflow pre true hfin

theorem readFinalCount_of_le {fin pre : BitVec 16} (hfin : tmoExact fin < 2 ^ 32) (h : tmoExact pre ≤ tmoExact fin) :
    readFinalCount fin pre true = .ok (BitVec.ofNat 32 (tmoExact fin - tmoExact pre)) := by
  rw [readFinalCount_of_fits hfin (Nat.lt_of_le_of_lt h hfin), hostSubtract_of_le hfin h]

theorem readFinalRange_of_error {fin pre : BitVec 16} (p : BitVec 16) {en : Bool} {e : Fault}
    (h : readFinalCount fin pre en = .error e) : readFinalRange fin pre p en = .error e := by
  rw [readFinalRange, h]

theorem readFinalRange_of_ok {fin pre : BitVec 16} (p : BitVec 16) {en : Bool} {count : BitVec 32}
    (h : readFinalCount fin pre en = .ok count) : readFinalRange fin pre p en = useCommand (.mclk2us count p) := by
  rw [readFinalRange, h]

/-- A count of 32 bits is converted, or overflows. -/
theorem useCommand_mclk2us_ofNat {n : Nat} (p : BitVec 16) (hn : n < 2 ^ 32) : useCommand (.mclk2us (BitVec.ofNat 32 n) p) =
    if 2 ^ 32 ≤ usExact n p.toNat then .error .ovf else .ok { y := BitVec.ofNat 48 (usExact n p.toNat), z := 0, f := 0 } := by
  have hcount : (BitVec.ofNat 32 n).toNat = n := Nat.mod_eq_of_lt hn
  rw [useCommand_mclk2us, hcount]

/-- Settles O52: the count read is a fault or a 32-bit number, and MCLK2US takes the number. -/
theorem finalRangeReadSequence : Obligations.FinalRangeReadSequence := by
  intro fin pre p
  simp only [← tmoExact_eq]
  refine ⟨fun en h => ?_, fun h => ?_, fun hfin => ?_, fun hfin h => ?_, fun hpre h => ?_⟩
  · exact readFinalRange_of_error p (readFinalCount_of_overflow pre en h)
  · exact readFinalRange_of_error p (readFinalCount_of_pre_overflow fin h)
  · exact (readFinalRange_of_ok p (readFinalCount_false pre hfin)).trans (useCommand_mclk2us_ofNat p hfin)
  · exact (readFinalRange_of_ok p (readFinalCount_of_le hfin h)).trans (useCommand_mclk2us_ofNat p (by omega))
  · exact readFinalRange_of_error p ((readFinalCount_of_fits (h.trans hpre) hpre).trans (hostSubtract_of_lt h))

/-! ## Writing and reading back (70_reset_and_hazards.md R155 with 40_timeout.md R79 and R81) -/

theorem flagSet_tmo2mclk_eq_false_iff (r : BitVec 16) :
    flagSet (eval (.tmo2mclk r)).f .ovf = false ↔ tmoExact r < 2 ^ 32 := by
  rw [flagSet_tmo2mclk, decide_eq_false_iff_not, Nat.not_le]

theorem expanded_toNat_of_fits {r : BitVec 16} (h : tmoExact r < 2 ^ 32) : (expanded r).toNat = tmoExact r := by
  rw [expanded_toNat, Nat.mod_eq_of_lt h]

/-- What a pair expands to comes back from the round trip, even if the pair is not canonical: all bits shifted out are 0. -/
theorem expanded_compressed_expanded {r : BitVec 16} (h : tmoExact r ≤ 0xFFFF) :
    (expanded (compressed (expanded r))).toNat = (expanded r).toNat := by
  have hcount : (expanded r).toNat = tmoExact r := expanded_toNat_of_fits (by omega)
  have hpred : tmoExact r - 1 = r.toNat % 256 * 2 ^ (r.toNat / 256) := by rw [tmoExact_eq, Nat.add_sub_cancel]
  have hshift : byteShift (tmoExact r - 1) ≤ r.toNat / 256 := by
    rw [← byteShift_fits_iff, hpred, Nat.mul_div_cancel _ (Nat.two_pow_pos _)]
    omega
  have hlost : (tmoExact r - 1) % 2 ^ byteShift (tmoExact r - 1) = 0 := by
    have hdvd : 2 ^ byteShift (tmoExact r - 1) ∣ r.toNat % 256 * 2 ^ (r.toNat / 256) :=
      Dvd.dvd.mul_left (pow_dvd_pow 2 hshift) _
    exact Nat.mod_eq_zero_of_dvd (hpred.symm ▸ hdvd)
  have hback := expanded_compressed_add_lost (m := expanded r)
    (hcount ▸ Nat.pos_of_ne_zero (tmoExact_ne_zero r)) (hcount ▸ h)
  rwa [hcount, hlost, Nat.add_zero, ← hcount] at hback

/-- The round trip does not take a count below an expanded pair that it was not below before. -/
theorem expanded_le_expanded_compressed {r : BitVec 16} {m : BitVec 32} (hr : tmoExact r < 2 ^ 32)
    (hle : (expanded r).toNat ≤ m.toNat) (hm : m.toNat ≤ 0xFFFF) :
    (expanded r).toNat ≤ (expanded (compressed m)).toNat := by
  have hcount := expanded_toNat_of_fits hr
  have hpos := tmoExact_ne_zero r
  obtain ⟨hmono, -⟩ := timeoutRoundTripMonotone
  calc (expanded r).toNat = (expanded (compressed (expanded r))).toNat := (expanded_compressed_expanded (by omega)).symm
    _ ≤ (expanded (compressed m)).toNat := hmono (expanded r) m (by omega) hle hm

/-- The pre-range count of the sequences, 0 where pre-range is not enabled; `readFinalCount_of_preRangeCount_le` ties it to the
model. -/
def preRangeCount (pre : BitVec 16) (en : Bool) : Nat := if en then (expanded pre).toNat else 0

theorem readFinalCount_of_preRangeCount_le {fin pre : BitVec 16} {en : Bool} (hfin : tmoExact fin < 2 ^ 32)
    (hpre : en = true → tmoExact pre < 2 ^ 32) (hle : preRangeCount pre en ≤ tmoExact fin) :
    readFinalCount fin pre en = .ok (BitVec.ofNat 32 (tmoExact fin - preRangeCount pre en)) := by
  cases en with
  | false => exact readFinalCount_false pre hfin
  | true =>
    have hcount : preRangeCount pre true = tmoExact pre := expanded_toNat_of_fits (hpre rfl)
    rw [hcount] at hle ⊢
    exact readFinalCount_of_le hfin hle

/-- Reading the pair of a written sum gives its round trip less the pre-range count; the difference is never negative. -/
theorem readFinalCount_compressed {m : BitVec 32} {pre : BitVec 16} {en : Bool} (hpre : en = true → tmoExact pre < 2 ^ 32)
    (hle : preRangeCount pre en ≤ m.toNat) (hm : m.toNat ≤ 0xFFFF) :
    ∃ count, readFinalCount (compressed m) pre en = .ok count ∧
      count.toNat + preRangeCount pre en = (expanded (compressed m)).toNat := by
  have hcanon := canonicalPair_compressed m
  have hlt := tmoExact_lt_of_canonical hcanon
  have hback : preRangeCount pre en ≤ tmoExact (compressed m) := by
    rw [← expanded_of_canonical hcanon]
    cases en with
    | false => exact Nat.zero_le _
    | true => exact expanded_le_expanded_compressed (hpre rfl) hle hm
  refine ⟨_, readFinalCount_of_preRangeCount_le (by omega) hpre hback, ?_⟩
  rw [expanded_of_canonical hcanon, BitVec.toNat_ofNat]
  omega

/-- The time of a count that is at most `loss` below the count of a time `u`. -/
theorem usExact_bounds_of_count_bounds {u p count loss : Nat} (hq : macroPeriod p ≠ 0) (hle : count ≤ mclkExact u p)
    (hloss : mclkExact u p ≤ count + loss) :
    1000 * usExact count p ≤ 1000 * u + macroPeriod p ∧
    1000 * u ≤ 1000 * usExact count p + 999 + loss * macroPeriod p := by
  have hupper := Nat.mul_le_mul_right (macroPeriod p) hle
  have hlower := Nat.mul_le_mul_right (macroPeriod p) hloss
  have hdiv := Nat.div_add_mod' (u * 1000 + macroPeriod p / 2) (macroPeriod p)
  have hmod := Nat.mod_lt (u * 1000 + macroPeriod p / 2) (Nat.pos_of_ne_zero hq)
  rw [Nat.add_mul] at hlower
  unfold mclkExact Config.mpDiv at hupper hlower
  unfold usExact Config.mpDiv
  constructor <;> omega

/-- A time read is the exact conversion of the count read. -/
theorem y_toNat_of_useCommand_mclk2us {m : BitVec 32} {p : BitVec 16} {v : Outputs} (h : useCommand (.mclk2us m p) = .ok v) :
    v.y.toNat = usExact m.toNat p.toNat := by
  rw [useCommand_mclk2us] at h
  split at h
  case isTrue => cases h
  case isFalse hfits =>
    cases h
    exact Nat.mod_eq_of_lt (by omega)

theorem eval_mclk2tmo_f_of_le {m : BitVec 32} (h : m.toNat ≤ 0xFFFF) : (eval (.mclk2tmo m)).f = 0 := by
  rw [eval, evalMclk2tmo, decide_eq_false (Nat.not_lt.2 h)]
  rfl

/-- Settles O53: the pair written is the compressed sum, so the count read is short of the one written by what the round trip
loses, and the two conversions bound the time. -/
theorem finalRangeWriteThenRead : Obligations.FinalRangeWriteThenRead := by
  intro us p pre en hp hovf q written sum hpos hmax
  have hpre (hen : en = true) : tmoExact pre < 2 ^ 32 := (flagSet_tmo2mclk_eq_false_iff pre).1 (hovf hen)
  have hwrite : writeFinalRange us p (expanded pre) en = .ok (eval (.mclk2tmo (BitVec.ofNat 32 sum))) :=
    writeFinalRange_of_sum_lt hp (Nat.lt_of_le_of_lt hmax (by decide))
  have hwritten : written = mclkExact us.toNat p.toNat := rfl
  have hsum : sum = written + preRangeCount pre en := rfl
  clear_value sum written
  have hm : (BitVec.ofNat 32 sum).toNat = sum := Nat.mod_eq_of_lt (by omega)
  generalize BitVec.ofNat 32 sum = m at hm hwrite
  obtain ⟨count, hread, hcount⟩ := readFinalCount_compressed (m := m) hpre (by omega) (by omega)
  have htime : readFinalRange (compressed m) pre p en = useCommand (.mclk2us count p) := readFinalRange_of_ok p hread
  have hpair : (eval (.mclk2tmo m)).y.toNat = (compressed m).toNat := by rw [eval_mclk2tmo_y_toNat, compressed_toNat]
  obtain ⟨hlost, hback, -⟩ := timeoutRoundTripLosesLowBitsOnly m (by omega) (by omega)
  have hle : count.toNat ≤ written := by omega
  have hloss : written ≤ count.toNat + (2 ^ ((eval (.mclk2tmo m)).y.toNat / 256) - 1) := by
    rw [hpair]
    omega
  refine ⟨_, count, hwrite, eval_mclk2tmo_f_of_le (by omega), hpair ▸ (compressed m).isLt, hread, hle, hloss, htime,
    fun v hv => ?_⟩
  rw [y_toNat_of_useCommand_mclk2us (htime.symm.trans hv)]
  exact usExact_bounds_of_count_bounds (macroPeriod_toNat_ne_zero hp) (hwritten ▸ hle) (hwritten ▸ hloss)

end Sys2Proof.Machine
end

section
/-! PROOFS. 30_encoding.md: decode of encode as words, bytes and table words (O36) and the sample words of 95_test_vectors.md (O35);
92_eei_decisions.md D25: SPADMAP as a plain popcount (O27). -/

namespace Sys2Proof.Machine

/-! ## Words (30_encoding.md R50 to R52) -/

theorem decodeWord_encode (i : Instr) : decodeWord (encode i) = i := by
  rw [decodeWord, encode, commandOfWord_commandToWord, decode_encodeCommand]

/-- Settles O35, by evaluating the decoder on the nine words. -/
theorem sampleWordsDecode : Obligations.SampleWordsDecode := by
  unfold Obligations.SampleWordsDecode
  decide

/-! ## Bytes and table words (log entry 7) -/

theorem length_bytesOf (n w : Nat) : (bytesOf n w).length = n := by
  induction n generalizing w with
  | zero => rfl
  | succ n ih => rw [bytesOf, List.length_cons, ih]

theorem littleEndian_bytesOf (n w : Nat) : littleEndian (bytesOf n w) = w % 256 ^ n := by
  induction n generalizing w with
  | zero => rw [bytesOf, littleEndian, Nat.pow_zero, Nat.mod_one]
  | succ n ih =>
    have hlow : (BitVec.ofNat 8 w).toNat = w % 256 := BitVec.toNat_ofNat w 8
    rw [bytesOf, littleEndian, ih, hlow, Nat.pow_succ', Nat.mod_mul]

/-- Nine bytes are one word, whatever follows them. -/
theorem decodeBytes_append_of_length {bytes : List Byte} (rest : List Byte) (hlength : bytes.length = 9) :
    decodeBytes (bytes ++ rest) =
      if wordWellFormed (littleEndian bytes) then .ok (decodeWord (BitVec.ofNat 68 (littleEndian bytes)), rest)
      else .error .paddingNotZero :=
  match bytes, hlength with
  | [_, _, _, _, _, _, _, _, _], _ => rfl

theorem littleEndian_encodeBytes (i : Instr) : littleEndian (encodeBytes i) = (encode i).toNat := by
  have := (encode i).isLt
  rw [encodeBytes, littleEndian_bytesOf, Nat.mod_eq_of_lt (by omega)]

theorem length_encodeBytes (i : Instr) : (encodeBytes i).length = 9 := length_bytesOf 9 _

theorem decodeBytes_encodeBytes_append (i : Instr) (rest : List Byte) :
    decodeBytes (encodeBytes i ++ rest) = .ok (i, rest) := by
  have hfits : wordWellFormed (encode i).toNat = true := decide_eq_true (encode i).isLt
  rw [decodeBytes_append_of_length rest (length_encodeBytes i), littleEndian_encodeBytes, if_pos hfits, BitVec.ofNat_toNat,
    BitVec.setWidth_eq, decodeWord_encode]

/-- A table word of 68 bits is read through the nine bytes that the encoder gives. -/
theorem decodeTableWord_encode (i : Instr) : decodeTableWord 68 (encode i).toNat = some i := by
  have hbytes : bytesOf (max 9 ((68 + 7) / 8)) ((encode i).toNat % 2 ^ 68) = encodeBytes i := by
    rw [Nat.mod_eq_of_lt (encode i).isLt]
    rfl
  rw [decodeTableWord, hbytes, ← List.append_nil (encodeBytes i), decodeBytes_encodeBytes_append]

/-- Settles O36: the encoder's word gives its command back, and the nine bytes of a word give back the word. -/
theorem decodeOfEncode : Obligations.DecodeOfEncode :=
  fun i => ⟨decodeWord_encode i, decodeBytes_encodeBytes_append i, decodeTableWord_encode i⟩

/-! ## SPADMAP as a plain popcount (92_eei_decisions.md D25) -/

/-- With a count that no map exceeds and every index eligible, the comparator refuses no bit (42_spad.md R119). -/
theorem eval_spadmap_255_y (map : BitVec 48) : (eval (.spadmap map 255 false)).y = map := by
  apply BitVec.eq_of_getLsbD_eq
  intro i hi
  have hcount : popcountRange map 0 48 ≤ 48 := popcountRange_le map 0 48
  calc (eval (.spadmap map 255 false)).y.getLsbD i
    _ = spadSelects map 255 0 i := eval_spadmap_y_getLsbD map 255 false i
    _ = (map.getLsbD i && decide (0 ≤ i)) := spadSelects_of_few hi (by omega)
    _ = map.getLsbD i := Bool.and_true _

theorem eval_spadmap_255_z (map : BitVec 48) : (eval (.spadmap map 255 false)).z = BitVec.ofNat 8 (popcount map) := by
  rw [← congrArg popcount (eval_spadmap_255_y map), popcount_eval_spadmap_y, BitVec.ofNat_toNat, BitVec.setWidth_eq]

theorem eval_spadmap_eq_mk (src : BitVec 48) (count : BitVec 8) (ap : Bool) : eval (.spadmap src count ap) =
    { y := (eval (.spadmap src count ap)).y, z := (eval (.spadmap src count ap)).z, f := 0 } := rfl

/-- Settles O27: every bit is kept, and `z` is the popcount of what is kept. -/
theorem spadmapGivesPlainPopcount : Obligations.SpadmapGivesPlainPopcount := by
  intro map
  rw [eval_spadmap_eq_mk, eval_spadmap_255_y, eval_spadmap_255_z]

end Sys2Proof.Machine
end
